-- ==== Sys2Proof/Word.lean ====
section
/-! DEFINITION. The word types of the block: what the spec treats as bits (00_scope.md R7), and the request word
(30_encoding.md R92). -/

namespace Sys2Proof

/-- One display-RAM cell and one payload group (00_scope.md R7, `DATA_BITS`). -/
abbrev Nibble := BitVec 4

/-- The address field of a WRITE frame (00_scope.md R7, `ADDR_BITS`). -/
abbrev Address := BitVec 6

/-- A command code (00_scope.md R7, `CMD_BITS`). -/
abbrev CommandCode := BitVec 8

/-- A glyph's segment mask (00_scope.md R7, `GLYPH_BITS`). -/
abbrev Mask := BitVec 16

/-- A host request word: `op` in its top 4 bits, then `a0`, `a1`, `a2` of `OPERAND_BITS` bits each. Its width is a
parameter, so it is a number; at the default 8 it is the 28-bit word of 30_encoding.md R92 (log 27). -/
abbrev RequestWord := Nat

end Sys2Proof
end

