-- ==== Sys2Proof/Config.lean ====
section
/-! DEFINITION. What the source fixes (00_scope.md R7), the parameters it leaves open with the spec's defaults
(00_scope.md R8), and the free values: opaque constants with no body, so that no proof can see one. -/

namespace Sys2Proof

/-- The three lines (00_scope.md R11, 10_state.md R21). -/
inductive Line where
  | cs
  | wr
  | data
  deriving DecidableEq, Repr, Inhabited

/-- Field `dir` of a line's configuration (10_state.md R26). The block writes only `output`; `notOutput` stands for
every other setting the platform may have left. -/
inductive LineDir where
  | output
  | notOutput
  deriving DecidableEq, Repr, Inhabited

/-- Field `pull` of a line's configuration (10_state.md R26). The block writes only `none`, "neither a pull-up nor
a pull-down resistor is enabled". -/
inductive LinePull where
  | none
  | up
  | down
  | upAndDown
  deriving DecidableEq, Repr, Inhabited

/-- Field `intr` of a line's configuration (10_state.md R26). The block writes only `disabled`. -/
inductive LineIntr where
  | disabled
  | enabled
  deriving DecidableEq, Repr, Inhabited

/-- One record `cfg_line[L]` (10_state.md R26). -/
structure LineConfig where
  dir : LineDir
  pull : LinePull
  intr : LineIntr
  deriving DecidableEq, Repr, Inhabited

/-- What a successful INIT leaves in each record: (`output`, `none`, `disabled`) (10_state.md R26). -/
def LineConfig.configured : LineConfig := ⟨.output, .none, .disabled⟩

/-- The 17 open entries of the glyph table (43_glyph_text.md R171): ten digits, six letters, the hyphen. The
eighteenth entry, the space, is fixed at 0x0000 and is no field. -/
structure GlyphTable where
  d0 : Mask
  d1 : Mask
  d2 : Mask
  d3 : Mask
  d4 : Mask
  d5 : Mask
  d6 : Mask
  d7 : Mask
  d8 : Mask
  d9 : Mask
  letterA : Mask
  letterB : Mask
  letterC : Mask
  letterD : Mask
  letterE : Mask
  letterF : Mask
  hyphen : Mask
  deriving DecidableEq, Repr, Inhabited

/-- Parameter `GLYPH_HIGH_CODES`: what a character code above 127 does (43_glyph_text.md R170). -/
inductive HighCodes where
  | blank
  | refuse
  deriving DecidableEq, Repr, Inhabited

/-- The parameters of 00_scope.md R8 that a run can depend on. Constant along every run: they stand in State only
so that a statement about every state is a statement about every instantiation (log 2).
`tMin` is `T_MIN` in nanoseconds (log 22), `operandBits` is `OPERAND_BITS` (log 17, log 27). -/
structure Params where
  bulkNibbles : Nat
  allowReinit : Bool
  glyphHighCodes : HighCodes
  tMin : Nat
  operandBits : Nat
  glyph : GlyphTable
  deriving DecidableEq, Repr, Inhabited

/-- The three line identifiers of the device handle (10_state.md R25). What an identifier is belongs to the
platform; a number stands for it (log 7). -/
structure Handle where
  cs : Nat
  wr : Nat
  data : Nat
  deriving DecidableEq, Repr, Inhabited

/-- "They must be pairwise different" (10_state.md R25, 44_device_lifecycle.md R190). -/
def Handle.distinct (h : Handle) : Bool := h.cs != h.wr && h.cs != h.data && h.wr != h.data

/-- `NUM_DIGITS` (00_scope.md R7). -/
def Config.numDigits : Nat := 10

/-- `NIBBLES_PER_DIGIT` (00_scope.md R7). -/
def Config.nibblesPerDigit : Nat := 4

/-- `DIGIT_CELLS`, the addresses reachable through (digit, nibble) (00_scope.md R7). -/
def Config.digitCells : Nat := 40

/-- `RAM_CELLS` (00_scope.md R7). -/
def Config.ramCells : Nat := 64

/-- The default of `OPERAND_BITS` (00_scope.md R8), the width for which 30_encoding.md R92 and spec/opcode_table.json lay
a request word out. -/
def Config.operandBits : Nat := 8

/-- FREE VALUE: the 17 open glyph masks of an actual table (43_glyph_text.md R171, R172; log 3). -/
opaque Config.glyph : GlyphTable

/-- FREE VALUE: the configuration the platform left on a line before INIT, "unspecified (`any value`)"
(10_state.md R20; log 4). -/
opaque Config.lineAtPowerOn : Line → LineConfig

/-- FREE VALUE: the configuration of a line after a rejected setup, one value for each draw
(44_device_lifecycle.md R192, 93_implementation_defined.md U8; log 5). -/
opaque Config.lineAfterReject : Nat → Line → LineConfig

/-- The defaults of 00_scope.md R8, with the open glyph table. -/
def Config.defaults : Params := ⟨40, false, .blank, 1000, Config.operandBits, Config.glyph⟩

/-- The range 00_scope.md R8 gives `BULK_NIBBLES`: "natural, 1 to 64". -/
def Params.legal (p : Params) : Bool := decide (1 ≤ p.bulkNibbles ∧ p.bulkNibbles ≤ Config.ramCells)

/-- `DIGIT_CELLS ≤ BULK_NIBBLES ≤ RAM_CELLS`, the condition of 00_scope.md R8 under which clear() covers every
addressable nibble. The reference value 32 does not meet it (90_conflicts.md C3). -/
def Params.coversDigits (p : Params) : Bool :=
  decide (Config.digitCells ≤ p.bulkNibbles ∧ p.bulkNibbles ≤ Config.ramCells)

/-- `LINE_CS`, `LINE_WR`, `LINE_DATA` of the block that `State.reset` is: three different numbers (log 7). -/
def Config.handle : Handle := ⟨0, 1, 2⟩

end Sys2Proof
end

