-- ==== Sys2Proof/Syntax.lean ====
section
/-! DEFINITION. The instructions: one constructor for each row of spec/opcode_table.json. Three groups: wire frames
(the receiver's, 30_encoding.md section 1), host operations (30_encoding.md R93) and internal primitives
(30_encoding.md R95). Host operands are naturals, so that the masks of 30_encoding.md R85 are part of the meanings
(log 17). -/

namespace Sys2Proof

/-- A decoded transaction, as `rx_log` records it (10_state.md R32, 30_encoding.md R98). -/
inductive Transaction where
  | cmd (code : CommandCode)
  | write (addr : Address) (data : List Nibble)
  deriving DecidableEq, Repr

/-- The opcode table's rows. -/
inductive Instr where
  /-- COMMAND: tag 100 and an 8-bit code, 11 bits (R81). -/
  | command (code : CommandCode)
  /-- WRITE: tag 101, 6-bit address, one nibble, 13 bits (R82). -/
  | write (addr : Address) (data : Nibble)
  /-- WRITE_BURST_FRAME: tag 101, 6-bit start address, N nibbles, 9 + 4N bits (R83). -/
  | writeBurstFrame (addr : Address) (data : List Nibble)
  /-- RESERVED_TAG: a closed transaction with a tag other than 100 and 101 (R87). -/
  | reservedTag (bits : List Bool)
  /-- CMD_SYS_DIS, code 0x00 (R86). -/
  | cmdSysDis
  /-- CMD_SYS_EN, code 0x01 (R86). -/
  | cmdSysEn
  /-- CMD_LCD_OFF, code 0x02 (R86). -/
  | cmdLcdOff
  /-- CMD_LCD_ON, code 0x03 (R86). -/
  | cmdLcdOn
  /-- CMD_TONE_OFF, code 0x08 (R86). -/
  | cmdToneOff
  /-- CMD_RC_32K, code 0x18 (R86). -/
  | cmdRc32k
  /-- CMD_EXT_32K, code 0x1C (R86). -/
  | cmdExt32k
  /-- CMD_IRQ_DIS, code 0x90 (R86). -/
  | cmdIrqDis
  /-- CMD_TIMEBASE_1HZ, code 0xA0 (R86). -/
  | cmdTimebase1hz
  /-- INIT, op 0x0 (R191). -/
  | init
  /-- SEND_COMMAND, op 0x1 (R130). -/
  | sendCommand (code : Nat)
  /-- WRITE_NIBBLE, op 0x2 (R151). -/
  | writeNibble (digit nibbleIndex value : Nat)
  /-- WRITE_BURST, op 0x3 (R134). -/
  | writeBurst (startAddr : Nat) (nibbles : List Nat)
  /-- SET_ALL, op 0x4 (R153); any operand but 0 means on. -/
  | setAll (on : Nat)
  /-- CLEAR, op 0x5 (R154). -/
  | clear
  /-- PUT_CHAR, op 0x6 (R173). -/
  | putChar (digit ch : Nat)
  /-- PUT_STRING, op 0x7 (R175). -/
  | putString (text : List Nat)
  /-- RESERVED_OP, op 0x8 to 0xF (R94). -/
  | reservedOp (op : Nat)
  /-- EMIT_BIT (R110). -/
  | emitBit (level : Bool)
  /-- EMIT_WORD (R112). -/
  | emitWord (value bitCount : Nat)
  /-- CS_ASSERT (R113). -/
  | csAssert
  /-- CS_RELEASE (R114). -/
  | csRelease
  /-- WRITE_ADDR (R132). -/
  | writeAddr (addr value : Nat)
  deriving DecidableEq, Repr

/-- The code of a named command row (30_encoding.md R86), for the nine of them. -/
def Instr.namedCode? : Instr → Option CommandCode
  | .cmdSysDis => some 0x00
  | .cmdSysEn => some 0x01
  | .cmdLcdOff => some 0x02
  | .cmdLcdOn => some 0x03
  | .cmdToneOff => some 0x08
  | .cmdRc32k => some 0x18
  | .cmdExt32k => some 0x1C
  | .cmdIrqDis => some 0x90
  | .cmdTimebase1hz => some 0xA0
  | .command _ | .write _ _ | .writeBurstFrame _ _ | .reservedTag _ | .init | .sendCommand _ | .writeNibble _ _ _
  | .writeBurst _ _ | .setAll _ | .clear | .putChar _ _ | .putString _ | .reservedOp _ | .emitBit _ | .emitWord _ _
  | .csAssert | .csRelease | .writeAddr _ _ => none

end Sys2Proof
end

