-- ==== Sys2Proof/WellFormed.lean ====
section
/-! DEFINITION. Which instruction terms the encodings of the spec can hold. -/

namespace Sys2Proof

/-- Every operand at the request port is an unsigned value of `OPERAND_BITS` bits (30_encoding.md R92, 00_scope.md R8). -/
def operandFits (operandBits v : Nat) : Bool := decide (v < 2 ^ operandBits)

/-- A bit list whose first three bits are a tag other than 100 and 101 (30_encoding.md R87). -/
def hasReservedTag (bits : List Bool) : Bool :=
  decide (3 ≤ bits.length) && bits.take 3 != [true, false, false] && bits.take 3 != [true, false, true]

/-- An instruction the encodings of 30_encoding.md can hold, at a given `OPERAND_BITS`. The empty WRITE_BURST is well
formed: the request word
and list express it, and its execution is what the spec refuses (41_frame_encoder.md R135). -/
def Instr.wellFormed (operandBits : Nat) : Instr → Bool
  | .command _ => true
  | .write _ _ => true
  | .writeBurstFrame _ data => !data.isEmpty
  | .reservedTag bits => hasReservedTag bits
  | .cmdSysDis | .cmdSysEn | .cmdLcdOff | .cmdLcdOn | .cmdToneOff | .cmdRc32k | .cmdExt32k | .cmdIrqDis
  | .cmdTimebase1hz => true
  | .init => true
  | .sendCommand code => operandFits operandBits code
  | .writeNibble digit nibbleIndex value =>
    operandFits operandBits digit && operandFits operandBits nibbleIndex && operandFits operandBits value
  | .writeBurst startAddr nibbles => operandFits operandBits startAddr && nibbles.all (operandFits operandBits)
  | .setAll on => operandFits operandBits on
  | .clear => true
  | .putChar digit ch => operandFits operandBits digit && operandFits operandBits ch
  | .putString text => text.all (operandFits operandBits)
  | .reservedOp op => decide (8 ≤ op ∧ op < 16)
  | .emitBit _ | .emitWord _ _ | .csAssert | .csRelease | .writeAddr _ _ => true

end Sys2Proof
end

