-- ==== Sys2Proof/Decode.lean ====
section
/-! DEFINITION. Bit lists and fields (00_scope.md R11), the decoder of both encodings, total, rejecting by name
(20_memory.md R65, 30_encoding.md R92 to R94), and after it the encoder (30_encoding.md R81 to R83, R92, R98). -/

namespace Sys2Proof

/-- `msb_first(v, n)`: the n-bit list `[v[n-1], …, v[0]]` (00_scope.md R11). -/
def msbFirst (v n : Nat) : List Bool := (List.range n).reverse.map fun i => v.testBit i

/-- The value of a bit list read MSB first. -/
def valueMsbFirst (bits : List Bool) : Nat := bits.foldl (fun acc b => 2 * acc + b.toNat) 0

/-- The field of `width` bits that starts at position `start` of a bit list, read MSB first. -/
def bitField (bits : List Bool) (start width : Nat) : Nat := valueMsbFirst ((bits.drop start).take width)

/-- The type tag of a COMMAND frame, `100` (30_encoding.md R80). -/
def tagCommand : List Bool := [true, false, false]

/-- The type tag of a WRITE frame, `101` (30_encoding.md R80). -/
def tagWrite : List Bool := [true, false, true]

/-- The payload groups of a WRITE frame: `di = value of b[9+4i .. 12+4i]` (20_memory.md R65). -/
def payloadNibbles (bits : List Bool) : List Nibble :=
  (List.range ((bits.length - 9) / 4)).map fun i => BitVec.ofNat 4 (bitField bits (9 + 4 * i) 4)

/-- The transaction a closed bit list carries, if it is a frame this spec knows (20_memory.md R65). -/
def parseFrame (bits : List Bool) : Option Transaction :=
  if bits.length = 11 ∧ bits.take 3 = tagCommand then
    some (.cmd (BitVec.ofNat 8 (bitField bits 3 8)))
  else if 13 ≤ bits.length ∧ (bits.length - 9) % 4 = 0 ∧ bits.take 3 = tagWrite then
    some (.write (BitVec.ofNat 6 (bitField bits 3 6)) (payloadNibbles bits))
  else
    none

/-- The table row of a command code: its named row where 30_encoding.md R86 lists the code, else COMMAND (log 10). -/
def commandInstr (code : CommandCode) : Instr :=
  if code = 0x00 then .cmdSysDis
  else if code = 0x01 then .cmdSysEn
  else if code = 0x02 then .cmdLcdOff
  else if code = 0x03 then .cmdLcdOn
  else if code = 0x08 then .cmdToneOff
  else if code = 0x18 then .cmdRc32k
  else if code = 0x1C then .cmdExt32k
  else if code = 0x90 then .cmdIrqDis
  else if code = 0xA0 then .cmdTimebase1hz
  else .command code

/-- The table row of a WRITE: a burst of one nibble "is bit-for-bit the single WRITE" (30_encoding.md R83; log 10). -/
def writeInstr (addr : Address) : List Nibble → Instr
  | [d] => .write addr d
  | data => .writeBurstFrame addr data

/-- The table row of a transaction. -/
def Transaction.instr : Transaction → Instr
  | .cmd code => commandInstr code
  | .write addr data => writeInstr addr data

/-- What the two encodings carry: a closed transaction's bits (20_memory.md R65), or a request word with its side list
(30_encoding.md R92). -/
inductive Code where
  | frame (bits : List Bool)
  | request (word : RequestWord) (list : List Nat)
  deriving DecidableEq, Repr

/-- Why a bit list is no row of the table (20_memory.md R67). -/
inductive Reject where
  /-- fewer than three bits: no tag -/
  | noTag
  /-- tag 100 and a length other than 11 -/
  | commandLength
  /-- tag 101 and a length other than 9 + 4N with N ≥ 1 -/
  | writeLength
  deriving DecidableEq, Repr

/-- The frame decoder (20_memory.md R65, 30_encoding.md R87). -/
def decodeFrame (bits : List Bool) : Except Reject Instr :=
  match parseFrame bits with
  | some t => .ok t.instr
  | none =>
    if hasReservedTag bits then .ok (.reservedTag bits)
    else if bits.length < 3 then .error .noTag
    else if bits.take 3 = tagCommand then .error .commandLength
    else .error .writeLength

/-- Field `index` of a request word, counted from its low end, each of `width` bits (30_encoding.md R92). -/
def requestField (width index word : Nat) : Nat := word / 2 ^ (width * index) % 2 ^ width

/-- `op`: `req[27:24]` at the default `OPERAND_BITS` (30_encoding.md R92). -/
def requestOp (operandBits word : Nat) : Nat := word / 2 ^ (operandBits * 3) % 2 ^ 4

/-- `a0`: `req[23:16]` at the default `OPERAND_BITS` (30_encoding.md R92). -/
def requestA0 (operandBits word : Nat) : Nat := requestField operandBits 2 word

/-- `a1`: `req[15:8]` at the default `OPERAND_BITS` (30_encoding.md R92). -/
def requestA1 (operandBits word : Nat) : Nat := requestField operandBits 1 word

/-- `a2`: `req[7:0]` at the default `OPERAND_BITS` (30_encoding.md R92). -/
def requestA2 (operandBits word : Nat) : Nat := requestField operandBits 0 word

/-- The side list: each element is a value of `OPERAND_BITS` bits (30_encoding.md R92). -/
def listOperand (operandBits : Nat) (list : List Nat) : List Nat := list.map (· % 2 ^ operandBits)

/-- The request decoder (30_encoding.md R92, R93, R94): every word is some row; unused fields are ignored. A value wider
than its port is "not representable at the request port" (93_implementation_defined.md U24): the port has no such bits. -/
def decodeRequest (operandBits : Nat) (word : RequestWord) (list : List Nat) : Instr :=
  match requestOp operandBits word with
  | 0 => .init
  | 1 => .sendCommand (requestA0 operandBits word)
  | 2 => .writeNibble (requestA0 operandBits word) (requestA1 operandBits word) (requestA2 operandBits word)
  | 3 => .writeBurst (requestA0 operandBits word) (listOperand operandBits list)
  | 4 => .setAll (requestA0 operandBits word)
  | 5 => .clear
  | 6 => .putChar (requestA0 operandBits word) (requestA1 operandBits word)
  | 7 => .putString (listOperand operandBits list)
  | op => .reservedOp op

/-- The decoder of a block of the given `OPERAND_BITS`. -/
def decode (operandBits : Nat) : Code → Except Reject Instr
  | .frame bits => decodeFrame bits
  | .request word list => .ok (decodeRequest operandBits word list)

/-- `frame_bits(t)` (30_encoding.md R81, R82, R83, R98). -/
def Transaction.frameBits : Transaction → List Bool
  | .cmd code => tagCommand ++ msbFirst code.toNat 8
  | .write addr data => tagWrite ++ msbFirst addr.toNat 6 ++ data.flatMap fun d => msbFirst d.toNat 4

/-- A request word, `op << 24 | a0 << 16 | a1 << 8 | a2` at the default `OPERAND_BITS` (30_encoding.md R92). -/
def requestWord (operandBits op a0 a1 a2 : Nat) : RequestWord :=
  ((op * 2 ^ operandBits + a0) * 2 ^ operandBits + a1) * 2 ^ operandBits + a2

/-- The encoder for a block of the given `OPERAND_BITS`. Unused request fields are written 0 (30_encoding.md R92: "ignored
(any value)"). An internal
primitive has no encoding (30_encoding.md R95). -/
def encode (operandBits : Nat) : Instr → Option Code
  | .command code => some (.frame (Transaction.cmd code).frameBits)
  | .write addr data => some (.frame (Transaction.write addr [data]).frameBits)
  | .writeBurstFrame addr data => some (.frame (Transaction.write addr data).frameBits)
  | .reservedTag bits => some (.frame bits)
  | .cmdSysDis => some (.frame (Transaction.cmd 0x00).frameBits)
  | .cmdSysEn => some (.frame (Transaction.cmd 0x01).frameBits)
  | .cmdLcdOff => some (.frame (Transaction.cmd 0x02).frameBits)
  | .cmdLcdOn => some (.frame (Transaction.cmd 0x03).frameBits)
  | .cmdToneOff => some (.frame (Transaction.cmd 0x08).frameBits)
  | .cmdRc32k => some (.frame (Transaction.cmd 0x18).frameBits)
  | .cmdExt32k => some (.frame (Transaction.cmd 0x1C).frameBits)
  | .cmdIrqDis => some (.frame (Transaction.cmd 0x90).frameBits)
  | .cmdTimebase1hz => some (.frame (Transaction.cmd 0xA0).frameBits)
  | .init => some (.request (requestWord operandBits 0 0 0 0) [])
  | .sendCommand code => some (.request (requestWord operandBits 1 code 0 0) [])
  | .writeNibble digit nibbleIndex value => some (.request (requestWord operandBits 2 digit nibbleIndex value) [])
  | .writeBurst startAddr nibbles => some (.request (requestWord operandBits 3 startAddr 0 0) nibbles)
  | .setAll on => some (.request (requestWord operandBits 4 on 0 0) [])
  | .clear => some (.request (requestWord operandBits 5 0 0 0) [])
  | .putChar digit ch => some (.request (requestWord operandBits 6 digit ch 0) [])
  | .putString text => some (.request (requestWord operandBits 7 0 0 0) text)
  | .reservedOp op => some (.request (requestWord operandBits op 0 0 0) [])
  | .emitBit _ | .emitWord _ _ | .csAssert | .csRelease | .writeAddr _ _ => none

/-- The row an instruction's words decode to: itself, but for the two overlaps of the table (log 10), a COMMAND with a
named code (30_encoding.md R86) and a WRITE_BURST_FRAME of one nibble (30_encoding.md R83). -/
def Instr.canonical : Instr → Instr
  | .command code => commandInstr code
  | .writeBurstFrame addr data => writeInstr addr data
  | .write addr data => .write addr data
  | .reservedTag bits => .reservedTag bits
  | .cmdSysDis => .cmdSysDis
  | .cmdSysEn => .cmdSysEn
  | .cmdLcdOff => .cmdLcdOff
  | .cmdLcdOn => .cmdLcdOn
  | .cmdToneOff => .cmdToneOff
  | .cmdRc32k => .cmdRc32k
  | .cmdExt32k => .cmdExt32k
  | .cmdIrqDis => .cmdIrqDis
  | .cmdTimebase1hz => .cmdTimebase1hz
  | .init => .init
  | .sendCommand code => .sendCommand code
  | .writeNibble digit nibbleIndex value => .writeNibble digit nibbleIndex value
  | .writeBurst startAddr nibbles => .writeBurst startAddr nibbles
  | .setAll on => .setAll on
  | .clear => .clear
  | .putChar digit ch => .putChar digit ch
  | .putString text => .putString text
  | .reservedOp op => .reservedOp op
  | .emitBit level => .emitBit level
  | .emitWord value bitCount => .emitWord value bitCount
  | .csAssert => .csAssert
  | .csRelease => .csRelease
  | .writeAddr addr value => .writeAddr addr value

/-- The bit list of a wire-frame row's table word: `W` of 11 bits for COMMAND (30_encoding.md R81), of 13 bits for
WRITE (R82), the header `H` of 9 bits for a burst (R83), whose operand groups are then two zero nibbles, the shortest
burst that is no WRITE; the three ranges of values are disjoint. Any other word is taken bit by bit at its given
width (log 11). -/
def tableFrameBits (nbits w : Nat) : List Bool :=
  if w >>> 8 = 0b100 then msbFirst w 11
  else if w >>> 10 = 0b101 then msbFirst w 13
  else if w >>> 6 = 0b101 then msbFirst w 9 ++ List.replicate 8 false
  else msbFirst w nbits

/-- The code of a table word: at most 16 bits is a wire frame, more is a 28-bit request word whose side list is one
zero value, laid out for the default `OPERAND_BITS` as the table has it (log 11). -/
def tableCode (nbits w : Nat) : Option Code :=
  if nbits ≤ 16 then some (.frame (tableFrameBits nbits w))
  else if w < 2 ^ 28 then some (.request w [0])
  else none

/-- The instruction the decoder reads from a table word. -/
def decodeTableWord (nbits w : Nat) : Option Instr :=
  match tableCode nbits w with
  | none => none
  | some code =>
    match decode Config.operandBits code with
    | .ok i => some i
    | .error _ => none

/-- A request word laid out for one `OPERAND_BITS`, laid out for another (log 11). DESIGN CHOICE (log 28): an operand that
does not fit the narrower width, for which the spec gives no word, loses its high bits, so that it never reaches the next
field. -/
def relayRequest (source target : Nat) (word : RequestWord) : RequestWord :=
  requestWord target (requestOp source word) (requestA0 source word % 2 ^ target) (requestA1 source word % 2 ^ target)
    (requestA2 source word % 2 ^ target)

end Sys2Proof
end

