-- ==== Sys2Proof/Machine/State.lean ====
section
/-! DEFINITION. The state of 10_state.md R20, whole, the inputs of 30_encoding.md R90, and three fields of the
model's own; and the state after reset (10_state.md R34, 70_reset_and_hazards.md R240 to R244). -/

namespace Sys2Proof.Machine

/-- The level of a line: 0, 1, or `U`, "not driven by this block" (00_scope.md R11). -/
inductive Level where
  | low
  | high
  | undriven
  deriving DecidableEq, Repr, Inhabited

/-- The three output latches, the block's only registers (10_state.md R21). -/
structure Pins where
  cs : Level
  wr : Level
  data : Level
  deriving DecidableEq, Repr, Inhabited

/-- The three `cfg_line` records (10_state.md R26). -/
structure LineConfigs where
  cs : LineConfig
  wr : LineConfig
  data : LineConfig
  deriving DecidableEq, Repr, Inhabited

/-- The completion status (10_state.md R28, 60_exceptions.md R210). -/
inductive Status where
  | ok
  | invalidArgument
  | configFailure
  deriving DecidableEq, Repr, Inhabited

/-- The sequencer position: `Idle`, or `Busy(op, k)` with k events of op's expansion performed (10_state.md R27). -/
inductive Seq where
  | idle
  | busy (op : Instr) (k : Nat)
  deriving DecidableEq, Repr

/-- An element of `trace`: a line event `(L, v)` or a `Wait` marker (10_state.md R31). -/
inductive TraceElem where
  | line (l : Line) (v : Bool)
  | wait
  deriving DecidableEq, Repr

/-- A known display-RAM cell: its address and its nibble (20_memory.md R50). -/
abbrev Cell := Nat × Nibble

/-- The display RAM: the known cells by rising address; an unlisted cell is `unknown` (10_state.md R20, log 18). -/
abbrev Memory := List Cell

/-- The reference receiver (10_state.md R32). -/
structure Receiver where
  ram : Memory
  bits : List Bool
  isOpen : Bool
  log : List Transaction
  fault : Bool
  deriving DecidableEq, Repr

/-- A request at port `req`, its word and its side list, with what the platform answers on port `cfg_ok` while it runs (30_encoding.md R90, R92;
log 6). -/
structure Request where
  word : RequestWord
  list : List Nat
  cfgOk : Bool
  deriving DecidableEq, Repr

/-- What can stand at the machine's input: a host request, or the bits of a closed transaction handed to the receiver
from outside the driver (20_memory.md R67; log 9). -/
inductive Arrival where
  | request (r : Request)
  | frame (bits : List Bool)
  deriving DecidableEq, Repr

/-- How much one step does: a whole host operation, or one line event of it (92_eei_decisions.md D1, D31; log 8). -/
inductive Grain where
  | operation
  | event
  deriving DecidableEq, Repr, Inhabited

/-- The machine. -/
structure State where
  /-- `pin[CS]`, `pin[WR]`, `pin[DATA]` -/
  pins : Pins
  /-- `cfg`: the lines are configured -/
  cfg : Bool
  /-- `cfg_line[L]` -/
  cfgLines : LineConfigs
  /-- `handle` -/
  handle : Handle
  /-- `status`; none: no operation has completed -/
  status : Option Status
  /-- `seq` -/
  seq : Seq
  /-- `trace`, oldest first -/
  trace : List TraceElem
  /-- `rx_ram`, `rx_bits`, `rx_open`, `rx_log`, `rx_fault` -/
  rx : Receiver
  /-- port `req`: what is presented now -/
  port : Option Arrival
  /-- what the host presents next, each once the one before has completed (30_encoding.md R91) -/
  script : List Request
  /-- port `cfg_ok`: the platform's answer -/
  cfgOk : Bool
  /-- the parameters of 00_scope.md R8, constant (log 2) -/
  params : Params
  /-- the model's own: how much one step does (log 8) -/
  grain : Grain
  /-- the model's own: how many free draws have been made (log 5) -/
  draws : Nat
  deriving DecidableEq, Repr

/-- Why the machine stops with a fault. The spec's own failures are statuses and `rx_fault`, both next states. -/
inductive Fault where
  /-- Raised by a step whose `seq` is `Busy(op, k)` for an `op` that is no host operation with an expansion, a state no
  run reaches (log 24). Safe. -/
  | noSuchOperation
  deriving DecidableEq, Repr

/-- The refusals of 60_exceptions.md R219 and 43_glyph_text.md R170: requests the spec gives no meaning. All safe: a
refusal has no next state (60_exceptions.md R218). -/
inductive Refusal where
  /-- an instruction not reached yet; raised by the dispatcher only -/
  | notModelled (mnemonic : String)
  /-- a request presented while `seq ≠ Idle`; raised by every host operation (60_exceptions.md R225) -/
  | busy
  /-- `refuse(not initialised)`; raised by every host operation but INIT, and by the primitives
  (70_reset_and_hazards.md R247; log 12) -/
  | notInitialised
  /-- `refuse(already initialised)`; raised by INIT (44_device_lifecycle.md R197) -/
  | alreadyInitialised
  /-- `refuse(lines not distinct)`; raised by handle construction and by INIT (44_device_lifecycle.md R190) -/
  | linesNotDistinct
  /-- `refuse(empty burst)`; raised by WRITE_BURST, and through it by SET_ALL, CLEAR and INIT when `BULK_NIBBLES` is 0
  (41_frame_encoder.md R135) -/
  | emptyBurst
  /-- `refuse(code above 127)`; raised by PUT_CHAR and PUT_STRING under `GLYPH_HIGH_CODES = refuse`
  (43_glyph_text.md R170) -/
  | codeAbove127
  /-- `refuse(reserved op)`; raised by RESERVED_OP (30_encoding.md R94) -/
  | reservedOp
  deriving DecidableEq, Repr

/-- Nothing drives the lines before INIT (70_reset_and_hazards.md R241). -/
def Pins.atReset : Pins := ⟨.undriven, .undriven, .undriven⟩

/-- The receiver at reset (70_reset_and_hazards.md R243). -/
def Receiver.atReset : Receiver := ⟨[], [], false, [], false⟩

/-- The machine right after reset (10_state.md R34): the state right after the handle was constructed, no request
presented. What the spec does not fix is named in logs 3, 4, 6, 7 and 8. -/
def State.reset : State where
  pins := Pins.atReset
  cfg := false
  cfgLines := ⟨Config.lineAtPowerOn .cs, Config.lineAtPowerOn .wr, Config.lineAtPowerOn .data⟩
  handle := Config.handle
  status := none
  seq := .idle
  trace := []
  rx := Receiver.atReset
  port := none
  script := []
  cfgOk := true
  params := Config.defaults
  grain := .operation
  draws := 0

end Sys2Proof.Machine
end

