-- ==== Sys2Proof/Machine/Flags.lean ====
section
/-! DEFINITION. The block's one flag, the completion status (10_state.md R28, 60_exceptions.md R210, R215, R216). -/

namespace Sys2Proof.Machine

/-- The code at port `resp` (60_exceptions.md R210). -/
def Status.code : Status → Nat
  | .ok => 0
  | .invalidArgument => 1
  | .configFailure => 2

/-- The end of a host operation: it "writes it exactly once, at its end" (10_state.md R28), and `seq` returns to
`Idle` (10_state.md R27, 60_exceptions.md R215). -/
def complete (st : Status) (s : State) : State := { s with status := some st, seq := .idle }

end Sys2Proof.Machine
end

