-- ==== Sys2Proof/Machine/Operands.lean ====
section
/-! DEFINITION. Every operand form of the spec: masked fields, the address function and its bounds, the Boolean operand,
the glyph ROM read and the nibble split (30_encoding.md R85, 20_memory.md R51, R54, 43_glyph_text.md R170, R171). -/

namespace Sys2Proof.Machine

/-- `code & 0xFF` (30_encoding.md R85). -/
def commandField (code : Nat) : CommandCode := BitVec.ofNat 8 (code &&& 0xFF)

/-- `addr & 0x3F` (30_encoding.md R85). -/
def addressField (addr : Nat) : Address := BitVec.ofNat 6 (addr &&& 0x3F)

/-- `value & 0x0F` (30_encoding.md R85). -/
def nibbleField (value : Nat) : Nibble := BitVec.ofNat 4 (value &&& 0x0F)

/-- `addr(d, n) = 4 * d + n` (20_memory.md R51). -/
def digitAddress (digit nibbleIndex : Nat) : Nat := 4 * digit + nibbleIndex

/-- The bounds of WRITE_NIBBLE: `digit < 10` and `nibble_index < 4` (42_display_ram.md R151). -/
def digitInBounds (digit nibbleIndex : Nat) : Bool :=
  decide (digit < Config.numDigits) && decide (nibbleIndex < Config.nibblesPerDigit)

/-- "at the request port `a0 ≠ 0` means on" (42_display_ram.md R153). -/
def operandOn (on : Nat) : Bool := on != 0

/-- The ASCII space, which blanks the digits beyond a string's end (43_glyph_text.md R175; log 21). -/
def spaceCode : Nat := 0x20

/-- `GLYPH(c)` on the entries E, blank elsewhere (43_glyph_text.md R170, R171; the codes: log 21). -/
def glyphEntry (g : GlyphTable) (ch : Nat) : Mask :=
  match ch with
  | 0x20 => 0x0000
  | 0x2D => g.hyphen
  | 0x30 => g.d0
  | 0x31 => g.d1
  | 0x32 => g.d2
  | 0x33 => g.d3
  | 0x34 => g.d4
  | 0x35 => g.d5
  | 0x36 => g.d6
  | 0x37 => g.d7
  | 0x38 => g.d8
  | 0x39 => g.d9
  | 0x41 => g.letterA
  | 0x42 => g.letterB
  | 0x43 => g.letterC
  | 0x44 => g.letterD
  | 0x45 => g.letterE
  | 0x46 => g.letterF
  | _ => 0x0000

/-- `GlyphRead(c)` (43_glyph_text.md R170). -/
def glyphRead (p : Params) (ch : Nat) : Mask := glyphEntry p.glyph ch

/-- A code that `GLYPH_HIGH_CODES = refuse` refuses (43_glyph_text.md R170). -/
def highCodeRefused (p : Params) (ch : Nat) : Bool := p.glyphHighCodes == .refuse && decide (127 < ch)

/-- "nibble `i` = bits `[4i, 4i+4)`" of a mask (43_glyph_text.md R173). -/
def maskNibble (m : Mask) (i : Nat) : Nat := (m.extractLsb' (4 * i) 4).toNat

/-- The character PUT_STRING writes at digit k: `s[k]` if `k < len(s)`, else a space (43_glyph_text.md R175). -/
def stringChar (text : List Nat) (k : Nat) : Nat := text.getD k spaceCode

end Sys2Proof.Machine
end

