-- ==== Sys2Proof/Machine/Ops.lean ====
section
/-! DEFINITION. The shared operations: the display RAM, the receiver's reaction to a line event, the playing of line
events, the primitives' expansions, the plan of a host operation, and how a host operation is admitted and ends, with
a failure status among the endings (the block's analogue of taking an exception, 60_exceptions.md R215). -/

namespace Sys2Proof.Machine

/-! ### The display RAM (20_memory.md R50, R66) -/

/-- A cell's content; none is `unknown` (20_memory.md R69). -/
def Memory.read : Memory → Nat → Option Nibble
  | [], _ => none
  | (a, v) :: m, addr => if a = addr then some v else Memory.read m addr

/-- `RamWrite(a, v)` (00_scope.md R12). -/
def Memory.write : Memory → Nat → Nibble → Memory
  | [], addr, v => [(addr, v)]
  | (a, w) :: m, addr, v =>
    if addr < a then (addr, v) :: (a, w) :: m
    else if addr = a then (addr, v) :: m
    else (a, w) :: Memory.write m addr v

/-- The canonical form: addresses strictly rising, each one of the 64 (20_memory.md R50). -/
abbrev Memory.wf (m : Memory) : Prop :=
  m.Pairwise (fun c d => c.1 < d.1) ∧ ∀ c ∈ m, c.1 < Config.ramCells

/-- The stores of a burst in ascending order; none when the pointer would pass address 63
(20_memory.md R66, R68). UNVERIFIED (log 26): that the pointer goes on at `addr + 1` is assumed of the controller, "a
protocol assumption, not re-verified by the driver" (41_frame_encoder.md R136). -/
def Memory.storeBurst : Memory → Nat → List Nibble → Option Memory
  | m, _, [] => some m
  | m, addr, d :: data =>
    if addr < Config.ramCells then Memory.storeBurst (Memory.write m addr d) (addr + 1) data else none

/-! ### The reference receiver (20_memory.md R63 to R71) -/

/-- A received command is logged "and has no other modelled effect" (10_state.md R33, 20_memory.md R65). -/
def Receiver.command (code : CommandCode) (r : Receiver) : Receiver := { r with log := r.log ++ [.cmd code] }

/-- `rx_fault <- true` and every cell `unknown` (20_memory.md R67, R68). -/
def Receiver.forget (r : Receiver) : Receiver := { r with fault := true, ram := [] }

/-- The RAM effect of a WRITE (20_memory.md R66, R68). -/
def Receiver.store (addr : Address) (data : List Nibble) (r : Receiver) : Receiver :=
  match Memory.storeBurst r.ram addr.toNat data with
  | some ram => { r with ram := ram }
  | none => r.forget

/-- A received WRITE: the RAM effect, and a log entry with all its nibbles in either case
(20_memory.md R65, R68). -/
def Receiver.writeData (addr : Address) (data : List Nibble) (r : Receiver) : Receiver :=
  let stored := r.store addr data
  { stored with log := stored.log ++ [.write addr data] }

/-- What a decoded transaction does (20_memory.md R65). -/
def Receiver.apply (t : Transaction) (r : Receiver) : Receiver :=
  match t with
  | .cmd code => r.command code
  | .write addr data => r.writeData addr data

/-- Decoding of a closed transaction (20_memory.md R65, R67). -/
def Receiver.receive (bits : List Bool) (r : Receiver) : Receiver :=
  match parseFrame bits with
  | some t => r.apply t
  | none => r.forget

/-- The bits a level gives when it is sampled: itself, or none on an undriven line (92_eei_decisions.md D23; DEDUCED,
log 13). -/
def Level.sampled : Level → List Bool
  | .low => [false]
  | .high => [true]
  | .undriven => []

/-- Sampling on a rising clock edge inside a bracket (20_memory.md R63; an undriven DATA line: log 13). -/
def Receiver.sample (data : Level) (r : Receiver) : Receiver := { r with bits := r.bits ++ data.sampled }

/-- A bracket edge in mid-pulse sets `rx_fault` (20_memory.md R64; log 14). -/
def Receiver.bracketEdge (wr : Level) (r : Receiver) : Receiver :=
  if wr = .low then { r with fault := true } else r

/-- Opening a transaction (20_memory.md R64). -/
def Receiver.opened (r : Receiver) : Receiver := { r with isOpen := true, bits := [] }

/-- Closing a transaction: decode, then `rx_open <- false`, `rx_bits <- []` (20_memory.md R64). -/
def Receiver.closed (r : Receiver) : Receiver := { r.receive r.bits with isOpen := false, bits := [] }

/-- The receiver's reaction to a line event, with the pin levels from before it (20_memory.md R63, R64). -/
def Receiver.react (pins : Pins) (l : Line) (v : Bool) (r : Receiver) : Receiver :=
  match l, v with
  | .wr, true => if pins.wr = .low ∧ pins.cs = .low ∧ r.isOpen = true then r.sample pins.data else r
  | .wr, false => r
  | .data, _ => r
  | .cs, false => if pins.cs = .low then r.bracketEdge pins.wr else (r.bracketEdge pins.wr).opened
  | .cs, true =>
    if pins.cs = .low then
      if r.isOpen = true then (r.bracketEdge pins.wr).closed else r.bracketEdge pins.wr
    else r

/-! ### Line events (00_scope.md R12, 30_encoding.md R98) -/

/-- The level a driven line takes. -/
def Level.ofBool : Bool → Level
  | false => .low
  | true => .high

/-- `pin[L]` (00_scope.md R12). -/
def Pins.get (p : Pins) : Line → Level
  | .cs => p.cs
  | .wr => p.wr
  | .data => p.data

/-- The latch part of `pin[L] <- v` (00_scope.md R12). -/
def Pins.set (p : Pins) (l : Line) (v : Bool) : Pins :=
  match l with
  | .cs => { p with cs := Level.ofBool v }
  | .wr => { p with wr := Level.ofBool v }
  | .data => { p with data := Level.ofBool v }

/-- One trace element's effect on the lines and on the receiver; `delay` "changes no state" (00_scope.md R12). -/
def wireStep (w : Pins × Receiver) : TraceElem → Pins × Receiver
  | .line l v => (w.1.set l v, w.2.react w.1 l v)
  | .wait => w

/-- The effect of a sequence of trace elements on the lines and on the receiver, in order (20_memory.md R61). -/
def wireRun (w : Pins × Receiver) (es : List TraceElem) : Pins × Receiver := es.foldl wireStep w

/-- Playing trace elements: each `pin[L] <- v` and `delay` "appends" to `trace` (00_scope.md R12, 10_state.md R31). -/
def play (es : List TraceElem) (s : State) : State :=
  let w := wireRun (s.pins, s.rx) es
  { s with pins := w.1, rx := w.2, trace := s.trace ++ es }

/-! ### The primitives' expansions (40_bit_transport.md) -/

/-- EMIT_BIT: `[(DATA,b), (WR,0), Wait, (WR,1), Wait]` (40_bit_transport.md R110, 30_encoding.md R98). -/
def bitEvents (level : Bool) : List TraceElem :=
  [.line .data level, .line .wr false, .wait, .line .wr true, .wait]

/-- EMIT_WORD: `value[bit_count - 1]` down to `value[0]` (40_bit_transport.md R112). -/
def wordEvents (value bitCount : Nat) : List TraceElem := (msbFirst value bitCount).flatMap bitEvents

/-- CS_ASSERT (40_bit_transport.md R113). -/
def assertEvents : List TraceElem := [.line .cs false]

/-- CS_RELEASE (40_bit_transport.md R114). -/
def releaseEvents : List TraceElem := [.line .cs true]

/-- The idle levels of INIT's step 2, "in the order the document lists them" (44_device_lifecycle.md R193). -/
def idleEvents : List TraceElem := [.line .cs true, .line .wr true, .line .data false]

/-- `wire(t)` (30_encoding.md R98). -/
def wireEvents (t : Transaction) : List TraceElem :=
  assertEvents ++ t.frameBits.flatMap bitEvents ++ releaseEvents

/-! ### Plans: what a host operation will do on the wire (00_scope.md R12, `call`, `raise`, `refuse`) -/

/-- A host operation's course: all its events and OK; or some events and a failure status; or a refusal. -/
inductive Plan where
  | run (es : List TraceElem)
  | raise (es : List TraceElem) (st : Status)
  | refuse (r : Refusal)
  deriving DecidableEq, Repr

/-- `call` one plan after another: "a `raise` inside it ends the calling operation too, with the same status"
(00_scope.md R12). -/
def Plan.andThen : Plan → Plan → Plan
  | .refuse r, _ => .refuse r
  | .raise es st, _ => .raise es st
  | .run _, .refuse r => .refuse r
  | .run es, .raise fs st => .raise (es ++ fs) st
  | .run es, .run fs => .run (es ++ fs)

/-- Plans called in order. -/
def Plan.inOrder : List Plan → Plan
  | [] => .run []
  | p :: ps => p.andThen (Plan.inOrder ps)

/-- What stands between a request and its plan: a refusal, or the state its plan starts from. -/
abbrev Admission := Except Refusal (State × Plan)

/-- The gate of every host operation but INIT: only while `seq = Idle` (60_exceptions.md R225), only while `cfg = true`
(30_encoding.md R94), both before the operands are looked at (60_exceptions.md R214; log 19). -/
def admitReady (p : Plan) (s : State) : Admission :=
  if s.seq ≠ .idle then .error .busy
  else if s.cfg = false then .error .notInitialised
  else .ok (s, p)

/-- Ending with a failure status, the block's analogue of taking an exception: "`status` takes the failure value, `seq`
returns to `Idle`, and nothing else changes"; nothing is saved, no mode changes, control goes nowhere
(60_exceptions.md R215). There is no return from it: the next request is taken as after a success
(60_exceptions.md R216). -/
def failWith (st : Status) (s : State) : State := complete st s

/-- How a plan ends: OK after its events; the failure status, and nothing else changed (60_exceptions.md R215); or a
refusal, no next state (60_exceptions.md R218). -/
def runPlan (p : Plan) (s : State) : Host.Outcome State Fault Refusal :=
  match p with
  | .run es => .next (complete .ok (play es s))
  | .raise es st => .next (failWith st (play es s))
  | .refuse r => .refused r

/-- A host operation as one step (10_state.md R27, 92_eei_decisions.md D31). -/
def runAdmitted (a : Admission) : Host.Outcome State Fault Refusal :=
  match a with
  | .error r => .refused r
  | .ok (s, p) => runPlan p s

/-- An internal primitive by itself: its precondition `cfg = true` (40_bit_transport.md R110, R113; log 12), then its
events; "`status` is not written by a primitive" (40_bit_transport.md R110). -/
def runPrimitive (es : List TraceElem) (s : State) : Host.Outcome State Fault Refusal :=
  if s.cfg = false then .refused .notInitialised else .next (play es s)

/-- A wire frame by itself: the receiver decodes a closed transaction (20_memory.md R65; log 9). -/
def runReceiver (effect : Receiver → Receiver) (s : State) : Host.Outcome State Fault Refusal :=
  .next { s with rx := effect s.rx }

end Sys2Proof.Machine
end

