-- ==== Sys2Proof/Machine/FrameEncoder.lean ====
section
/-! DEFINITION. The Frame Encoder: SEND_COMMAND, WRITE_ADDR, WRITE_BURST (41_frame_encoder.md). -/

namespace Sys2Proof.Machine

/-- The bracket, tag and code of a COMMAND (R130). -/
def sendCommandEvents (code : Nat) : List TraceElem :=
  assertEvents ++ wordEvents 0b100 3 ++ wordEvents (commandField code).toNat 8 ++ releaseEvents

/-- The bracket, tag, address and nibble of a single WRITE (R132). -/
def writeAddrEvents (addr value : Nat) : List TraceElem :=
  assertEvents ++ wordEvents 0b101 3 ++ wordEvents (addressField addr).toNat 6 ++ wordEvents (nibbleField value).toNat 4
    ++ releaseEvents

/-- The bracket, tag, start address and nibbles of a burst: one header, one bracket (R134, R136). -/
def writeBurstEvents (startAddr : Nat) (nibbles : List Nat) : List TraceElem :=
  assertEvents ++ wordEvents 0b101 3 ++ wordEvents (addressField startAddr).toNat 6
    ++ (nibbles.flatMap fun v => wordEvents (nibbleField v).toNat 4) ++ releaseEvents

/-- SEND_COMMAND's course (R130). -/
def planSendCommand (code : Nat) : Plan := .run (sendCommandEvents code)

/-- WRITE_ADDR's course (R132). -/
def planWriteAddr (addr value : Nat) : Plan := .run (writeAddrEvents addr value)

/-- WRITE_BURST's course; the empty burst is refused (R134, R135). -/
def planWriteBurst (startAddr : Nat) (nibbles : List Nat) : Plan :=
  if nibbles = [] then .refuse .emptyBurst else .run (writeBurstEvents startAddr nibbles)

/-- SEND_COMMAND (R130). -/
def execSendCommand (code : Nat) (s : State) : Host.Outcome State Fault Refusal :=
  runAdmitted (admitReady (planSendCommand code) s)

/-- WRITE_ADDR (R132), an internal primitive: no status. -/
def execWriteAddr (addr value : Nat) (s : State) : Host.Outcome State Fault Refusal :=
  runPrimitive (writeAddrEvents addr value) s

/-- WRITE_BURST (R134). -/
def execWriteBurst (startAddr : Nat) (nibbles : List Nat) (s : State) : Host.Outcome State Fault Refusal :=
  runAdmitted (admitReady (planWriteBurst startAddr nibbles) s)

end Sys2Proof.Machine
end

