-- ==== Sys2Proof/Machine/DisplayRam.lean ====
section
/-! DEFINITION. Display RAM addressing: WRITE_NIBBLE, SET_ALL, CLEAR (42_display_ram.md). -/

namespace Sys2Proof.Machine

/-- WRITE_NIBBLE's course: the bounds check comes before any line event (R151, R152). -/
def planWriteNibble (digit nibbleIndex value : Nat) : Plan :=
  if digitInBounds digit nibbleIndex = true then planWriteAddr (digitAddress digit nibbleIndex) value
  else .raise [] .invalidArgument

/-- SET_ALL's course: one burst of `BULK_NIBBLES` nibbles from address 0 (R153, R155). -/
def planSetAll (p : Params) (on : Nat) : Plan :=
  planWriteBurst 0 (List.replicate p.bulkNibbles (if operandOn on = true then 0xF else 0x0))

/-- CLEAR's course (R154). -/
def planClear (p : Params) : Plan := planWriteBurst 0 (List.replicate p.bulkNibbles 0x0)

/-- WRITE_NIBBLE (R151). -/
def execWriteNibble (digit nibbleIndex value : Nat) (s : State) : Host.Outcome State Fault Refusal :=
  runAdmitted (admitReady (planWriteNibble digit nibbleIndex value) s)

/-- SET_ALL (R153). -/
def execSetAll (on : Nat) (s : State) : Host.Outcome State Fault Refusal :=
  runAdmitted (admitReady (planSetAll s.params on) s)

/-- CLEAR (R154). -/
def execClear (s : State) : Host.Outcome State Fault Refusal := runAdmitted (admitReady (planClear s.params) s)

end Sys2Proof.Machine
end

