-- ==== Sys2Proof/Machine/Lifecycle.lean ====
section
/-! DEFINITION. Device Lifecycle: handle construction and INIT (44_device_lifecycle.md), and the reserved operation
numbers (30_encoding.md R94). -/

namespace Sys2Proof.Machine

/-- Handle construction (R190): the state of reset with the three identifiers, refused when they are not pairwise
different (60_exceptions.md R219). Not a request: it is the instantiation of the block. -/
def construct (h : Handle) : Host.Outcome State Fault Refusal :=
  if h.distinct = true then .next { State.reset with handle := h } else .refused .linesNotDistinct

/-- INIT's power-on commands, "in this exact order": system-oscillator-enable, LCD-bias-on, internal-RC-clock-select,
tone-off, IRQ-disable, timebase-select (R191, R194). -/
def powerOnCommands : List Nat := [0x01, 0x03, 0x18, 0x08, 0x90, 0xA0]

/-- INIT's course after the line configuration: idle levels, six commands, CLEAR (R191, steps 2 to 4). -/
def planInit (p : Params) : Plan :=
  (Plan.run idleEvents).andThen ((Plan.inOrder (powerOnCommands.map planSendCommand)).andThen (planClear p))

/-- INIT's step 1 when the platform accepts: all three records, and `cfg` (R192). -/
def configureLines (s : State) : State :=
  { s with cfg := true, cfgLines := ⟨.configured, .configured, .configured⟩ }

/-- INIT's step 1 when the platform rejects: `cfg_line` is unspecified, a free draw for each line; nothing else changes
(R192; log 5, log 15). -/
def rejectLines (s : State) : State :=
  { s with
    cfgLines := ⟨Config.lineAfterReject s.draws .cs, Config.lineAfterReject s.draws .wr,
      Config.lineAfterReject s.draws .data⟩
    draws := s.draws + 1 }

/-- What stands between an INIT request and its course: `seq = Idle` (60_exceptions.md R225); a first INIT or
`ALLOW_REINIT` (R197); a handle (R190); then step 1 (R192). -/
def admitInit (s : State) : Admission :=
  if s.seq ≠ .idle then .error .busy
  else if s.cfg = true ∧ s.params.allowReinit = false then .error .alreadyInitialised
  else if s.handle.distinct = false then .error .linesNotDistinct
  else if s.cfgOk = false then .ok (rejectLines s, .raise [] .configFailure)
  else .ok (configureLines s, planInit s.params)

/-- INIT (R191). -/
def execInit (s : State) : Host.Outcome State Fault Refusal := runAdmitted (admitInit s)

/-- RESERVED_OP: "`refuse(reserved op)`: no line event, no status, no next state" (30_encoding.md R94); while another
operation runs it is refused as busy like any request (60_exceptions.md R225; log 19). -/
def execReservedOp (_op : Nat) (s : State) : Host.Outcome State Fault Refusal :=
  if s.seq ≠ .idle then .refused .busy else .refused .reservedOp

end Sys2Proof.Machine
end

