-- ==== Sys2Proof/Machine/ReceiverFrames.lean ====
section
/-! DEFINITION. The wire frames as the receiver executes them when a transaction closes (20_memory.md R65 to R68,
30_encoding.md R81 to R88; log 9). The driver's side of the same frames is in FrameEncoder.lean. -/

namespace Sys2Proof.Machine

/-- COMMAND (R81, 20_memory.md R65, 10_state.md R33). -/
def execCommand (code : CommandCode) (s : State) : Host.Outcome State Fault Refusal :=
  runReceiver (Receiver.command code) s

/-- WRITE (R82, 20_memory.md R65, R66): a burst of one nibble (30_encoding.md R83). -/
def execWrite (addr : Address) (data : Nibble) (s : State) : Host.Outcome State Fault Refusal :=
  runReceiver (Receiver.writeData addr [data]) s

/-- WRITE_BURST_FRAME (R83, 20_memory.md R65, R66, R68). -/
def execWriteBurstFrame (addr : Address) (data : List Nibble) (s : State) : Host.Outcome State Fault Refusal :=
  runReceiver (Receiver.writeData addr data) s

/-- RESERVED_TAG (30_encoding.md R87, 20_memory.md R67): `rx_fault`, every cell `unknown`, nothing logged, whatever the
bits after the tag. -/
def execReservedTag (_bits : List Bool) (s : State) : Host.Outcome State Fault Refusal :=
  runReceiver Receiver.forget s

/-- CMD_SYS_DIS, "system-disable" (30_encoding.md R86; its effect in the controller: 10_state.md R33). -/
def execCmdSysDis (s : State) : Host.Outcome State Fault Refusal := runReceiver (Receiver.command 0x00) s

/-- CMD_SYS_EN, "system-enable" (30_encoding.md R86). -/
def execCmdSysEn (s : State) : Host.Outcome State Fault Refusal := runReceiver (Receiver.command 0x01) s

/-- CMD_LCD_OFF, "LCD-bias-off" (30_encoding.md R86). -/
def execCmdLcdOff (s : State) : Host.Outcome State Fault Refusal := runReceiver (Receiver.command 0x02) s

/-- CMD_LCD_ON, "LCD-bias-on" (30_encoding.md R86). -/
def execCmdLcdOn (s : State) : Host.Outcome State Fault Refusal := runReceiver (Receiver.command 0x03) s

/-- CMD_TONE_OFF, "tone-off" (30_encoding.md R86). -/
def execCmdToneOff (s : State) : Host.Outcome State Fault Refusal := runReceiver (Receiver.command 0x08) s

/-- CMD_RC_32K, "internal-32kHz-RC" (30_encoding.md R86). -/
def execCmdRc32k (s : State) : Host.Outcome State Fault Refusal := runReceiver (Receiver.command 0x18) s

/-- CMD_EXT_32K, "external-32kHz" (30_encoding.md R86). -/
def execCmdExt32k (s : State) : Host.Outcome State Fault Refusal := runReceiver (Receiver.command 0x1C) s

/-- CMD_IRQ_DIS, "IRQ-disable" (30_encoding.md R86). -/
def execCmdIrqDis (s : State) : Host.Outcome State Fault Refusal := runReceiver (Receiver.command 0x90) s

/-- CMD_TIMEBASE_1HZ, "1Hz-timebase" (30_encoding.md R86). -/
def execCmdTimebase1hz (s : State) : Host.Outcome State Fault Refusal := runReceiver (Receiver.command 0xA0) s

end Sys2Proof.Machine
end

