-- ==== Sys2Proof/Machine/Text.lean ====
section
/-! DEFINITION. Text: PUT_CHAR, PUT_STRING (43_glyph_text.md). -/

namespace Sys2Proof.Machine

/-- PUT_CHAR's course: the glyph read, then four WRITE_NIBBLEs in order (R173); under `GLYPH_HIGH_CODES = refuse` a
code above 127 is refused (R170; log 16). -/
def planPutChar (p : Params) (digit ch : Nat) : Plan :=
  if highCodeRefused p ch = true then .refuse .codeAbove127
  else Plan.inOrder ([0, 1, 2, 3].map fun i => planWriteNibble digit i (maskNibble (glyphRead p ch) i))

/-- PUT_STRING's course: ten PUT_CHARs, the digits beyond the string's end blanked with a space (R175). -/
def planPutString (p : Params) (text : List Nat) : Plan :=
  Plan.inOrder ((List.range Config.numDigits).map fun k => planPutChar p k (stringChar text k))

/-- PUT_CHAR (R173). -/
def execPutChar (digit ch : Nat) (s : State) : Host.Outcome State Fault Refusal :=
  runAdmitted (admitReady (planPutChar s.params digit ch) s)

/-- PUT_STRING (R175). -/
def execPutString (text : List Nat) (s : State) : Host.Outcome State Fault Refusal :=
  runAdmitted (admitReady (planPutString s.params text) s)

end Sys2Proof.Machine
end

