-- ==== Sys2Proof/Machine/Transport.lean ====
section
/-! DEFINITION. Bit Transport: EMIT_BIT, EMIT_WORD, CS_ASSERT, CS_RELEASE (40_bit_transport.md). -/

namespace Sys2Proof.Machine

/-- EMIT_BIT (R110). -/
def execEmitBit (level : Bool) (s : State) : Host.Outcome State Fault Refusal := runPrimitive (bitEvents level) s

/-- EMIT_WORD (R112). -/
def execEmitWord (value bitCount : Nat) (s : State) : Host.Outcome State Fault Refusal :=
  runPrimitive (wordEvents value bitCount) s

/-- CS_ASSERT (R113). -/
def execCsAssert (s : State) : Host.Outcome State Fault Refusal := runPrimitive assertEvents s

/-- CS_RELEASE (R114). -/
def execCsRelease (s : State) : Host.Outcome State Fault Refusal := runPrimitive releaseEvents s

end Sys2Proof.Machine
end

