-- ==== Sys2Proof/Machine/Dispatch.lean ====
section
/-! DEFINITION. One arm for each row of spec/opcode_table.json. -/

namespace Sys2Proof.Machine

def exec (i : Instr) (s : State) : Host.Outcome State Fault Refusal :=
  match i with
  -- wire frames, at the receiver
  | .command code => Sys2Proof.Machine.execCommand code s
  | .write addr data => Sys2Proof.Machine.execWrite addr data s
  | .writeBurstFrame addr data => Sys2Proof.Machine.execWriteBurstFrame addr data s
  | .reservedTag bits => Sys2Proof.Machine.execReservedTag bits s
  | .cmdSysDis => Sys2Proof.Machine.execCmdSysDis s
  | .cmdSysEn => Sys2Proof.Machine.execCmdSysEn s
  | .cmdLcdOff => Sys2Proof.Machine.execCmdLcdOff s
  | .cmdLcdOn => Sys2Proof.Machine.execCmdLcdOn s
  | .cmdToneOff => Sys2Proof.Machine.execCmdToneOff s
  | .cmdRc32k => Sys2Proof.Machine.execCmdRc32k s
  | .cmdExt32k => Sys2Proof.Machine.execCmdExt32k s
  | .cmdIrqDis => Sys2Proof.Machine.execCmdIrqDis s
  | .cmdTimebase1hz => Sys2Proof.Machine.execCmdTimebase1hz s
  -- host operations
  | .init => Sys2Proof.Machine.execInit s
  | .sendCommand code => Sys2Proof.Machine.execSendCommand code s
  | .writeNibble digit nibbleIndex value => Sys2Proof.Machine.execWriteNibble digit nibbleIndex value s
  | .writeBurst startAddr nibbles => Sys2Proof.Machine.execWriteBurst startAddr nibbles s
  | .setAll on => Sys2Proof.Machine.execSetAll on s
  | .clear => Sys2Proof.Machine.execClear s
  | .putChar digit ch => Sys2Proof.Machine.execPutChar digit ch s
  | .putString text => Sys2Proof.Machine.execPutString text s
  | .reservedOp op => Sys2Proof.Machine.execReservedOp op s
  -- internal primitives
  | .emitBit level => Sys2Proof.Machine.execEmitBit level s
  | .emitWord value bitCount => Sys2Proof.Machine.execEmitWord value bitCount s
  | .csAssert => Sys2Proof.Machine.execCsAssert s
  | .csRelease => Sys2Proof.Machine.execCsRelease s
  | .writeAddr addr value => Sys2Proof.Machine.execWriteAddr addr value s

end Sys2Proof.Machine
end

