-- ==== Sys2Proof/Machine/Sequencer.lean ====
section
/-! DEFINITION. The sequencer (10_state.md R27): running a host operation one line event a step, and running what
arrives at the input. Either grain gives "the same `trace`, status and receiver state" (92_eei_decisions.md D31). -/

namespace Sys2Proof.Machine

/-- What admits a host operation; none for a row that is no host operation with a course. -/
def admission? (i : Instr) (s : State) : Option Admission :=
  match i with
  | .init => some (admitInit s)
  | .sendCommand code => some (admitReady (planSendCommand code) s)
  | .writeNibble digit nibbleIndex value => some (admitReady (planWriteNibble digit nibbleIndex value) s)
  | .writeBurst startAddr nibbles => some (admitReady (planWriteBurst startAddr nibbles) s)
  | .setAll on => some (admitReady (planSetAll s.params on) s)
  | .clear => some (admitReady (planClear s.params) s)
  | .putChar digit ch => some (admitReady (planPutChar s.params digit ch) s)
  | .putString text => some (admitReady (planPutString s.params text) s)
  | .command _ | .write _ _ | .writeBurstFrame _ _ | .reservedTag _ | .cmdSysDis | .cmdSysEn | .cmdLcdOff | .cmdLcdOn
  | .cmdToneOff | .cmdRc32k | .cmdExt32k | .cmdIrqDis | .cmdTimebase1hz | .reservedOp _ | .emitBit _ | .emitWord _ _
  | .csAssert | .csRelease | .writeAddr _ _ => none

/-- The course of a host operation that `seq = Busy(op, k)` is running. -/
def busyPlan? (p : Params) (op : Instr) : Option Plan :=
  match op with
  | .init => some (planInit p)
  | .sendCommand code => some (planSendCommand code)
  | .writeNibble digit nibbleIndex value => some (planWriteNibble digit nibbleIndex value)
  | .writeBurst startAddr nibbles => some (planWriteBurst startAddr nibbles)
  | .setAll on => some (planSetAll p on)
  | .clear => some (planClear p)
  | .putChar digit ch => some (planPutChar p digit ch)
  | .putString text => some (planPutString p text)
  | .command _ | .write _ _ | .writeBurstFrame _ _ | .reservedTag _ | .cmdSysDis | .cmdSysEn | .cmdLcdOff | .cmdLcdOn
  | .cmdToneOff | .cmdRc32k | .cmdExt32k | .cmdIrqDis | .cmdTimebase1hz | .reservedOp _ | .emitBit _ | .emitWord _ _
  | .csAssert | .csRelease | .writeAddr _ _ => none

/-- Accepting a host operation without running it: `seq <- Busy(op, 0)`. A failure ends it at once, before any line
event (60_exceptions.md R215). -/
def beginOperation (i : Instr) (a : Admission) : Host.Outcome State Fault Refusal :=
  match a with
  | .error r => .refused r
  | .ok (s, .run _) => .next { s with seq := .busy i 0 }
  | .ok (s, .raise es st) => runPlan (.raise es st) s
  | .ok (_, .refuse r) => .refused r

/-- The next event of the operation in progress; with the last one it completes (10_state.md R27). -/
def advance (op : Instr) (k : Nat) (s : State) : Host.Outcome State Fault Refusal :=
  match busyPlan? s.params op with
  | some (.run es) =>
    match es[k]? with
    | some e =>
      if k + 1 < es.length then .next { play [e] s with seq := .busy op (k + 1) }
      else .next (complete .ok (play [e] s))
    | none => .next (complete .ok s)
  | some (.raise _ _) => .fault .noSuchOperation
  | some (.refuse _) => .fault .noSuchOperation
  | none => .fault .noSuchOperation

/-- Running an instruction at the machine's grain. -/
def launch (i : Instr) (s : State) : Host.Outcome State Fault Refusal :=
  match s.grain with
  | .operation => exec i s
  | .event =>
    match admission? i s with
    | some a => beginOperation i a
    | none => exec i s

/-- Running what arrives: a request brings the platform's answer with it and every request word is some row
(30_encoding.md R92, R93); a bit list that is no row of the table is what 20_memory.md R67 says. -/
def runArrival (a : Arrival) (s : State) : Host.Outcome State Fault Refusal :=
  match a with
  | .request r => launch (decodeRequest s.params.operandBits r.word r.list) { s with cfgOk := r.cfgOk }
  | .frame bits =>
    match decodeFrame bits with
    | .ok i => exec i s
    | .error _ => runReceiver Receiver.forget s

/-- The machine with nothing at its port: the operation in progress goes on; else the host presents its next request
(30_encoding.md R91); else the block waits and nothing changes (log 1). -/
def runOn (s : State) : Host.Outcome State Fault Refusal :=
  match s.seq with
  | .busy op k => advance op k s
  | .idle =>
    match s.script with
    | r :: rs => runArrival (.request r) { s with script := rs }
    | [] => .next s

/-- What the port of a block of the given `OPERAND_BITS` holds for a table word: nothing when it is no word of either
encoding; a request keeps the answer that stands on `cfg_ok` (log 11). -/
def tableArrival (operandBits nbits w : Nat) (cfgOk : Bool) : Option Arrival :=
  match tableCode nbits w with
  | some (.frame bits) => some (.frame bits)
  | some (.request word list) => some (.request ⟨relayRequest Config.operandBits operandBits word, list, cfgOk⟩)
  | none => none

end Sys2Proof.Machine
end

