-- ==== Sys2Proof/Machine/Step.lean ====
section
/-! DEFINITION. One step. The block fetches nothing (10_state.md R27): its next instruction is what stands at its
port (30_encoding.md R90, R91). -/

namespace Sys2Proof.Machine

/-- One step: what stands at the port is taken and run; with nothing there the machine goes on by itself. -/
def step (s : State) : Host.Outcome State Fault Refusal :=
  match s.port with
  | some a => runArrival a { s with port := none }
  | none => runOn s

/-- The state with a table word at the port, where `step` takes its next instruction (log 1, log 11). -/
def State.withFetchWord (s : State) (nbits w : Nat) : State :=
  { s with port := tableArrival s.params.operandBits nbits w s.cfgOk }

end Sys2Proof.Machine
end

