-- ==== Sys2Proof/Machine/View.lean ====
section
/-! DEFINITION. Views of a trace: the bits an observer of the lines reads (10_state.md R31), the counts and the minimum
duration of 70_reset_and_hazards.md R255, and the timing obligations of R254 over event times. Nothing here changes
the machine. -/

namespace Sys2Proof.Machine

/-- An observer of the three lines, reading bits from a trace without the receiver (10_state.md R31). -/
structure Watch where
  csLow : Bool
  wrLow : Bool
  data : Level
  current : List Bool
  finished : List (List Bool)
  deriving DecidableEq, Repr

/-- "for each event `(WR, 1)` that follows an event `(WR, 0)` while `pin[CS] = 0`, the level of `pin[DATA]` at that
moment, in order; grouped into one list per transaction" (10_state.md R31). DESIGN CHOICE (log 25): the model's own, where
R31 leaves a chip-select event repeated inside an open bracket unsaid: a list starts at the last `(CS, 0)` before its
`(CS, 1)`, and a `(CS, 1)` without an open bracket ends none. DEDUCED (log 13): where DATA is still undriven, its level U
is no bit, and the observer reads none there, as the receiver samples none. -/
def Watch.see (w : Watch) : TraceElem → Watch
  | .line .data v => { w with data := Level.ofBool v }
  | .line .wr false => { w with wrLow := true }
  | .line .wr true =>
    if w.wrLow = true ∧ w.csLow = true then { w with wrLow := false, current := w.current ++ w.data.sampled }
    else { w with wrLow := false }
  | .line .cs false => { w with csLow := true, current := [] }
  | .line .cs true =>
    if w.csLow = true then { w with csLow := false, current := [], finished := w.finished ++ [w.current] } else w
  | .wait => w

/-- `bits(trace)` (10_state.md R31): one bit list for each finished transaction. At the start of a trace chip-select is high
or undriven, no clock pulse has begun, and DATA is undriven (log 13, log 25). -/
def observedBits (trace : List TraceElem) : List (List Bool) :=
  (trace.foldl Watch.see ⟨false, false, .undriven, [], []⟩).finished

/-- Whether a trace element is a line event (70_reset_and_hazards.md R255). -/
def TraceElem.isLine : TraceElem → Bool
  | .line _ _ => true
  | .wait => false

/-- Line events of a trace (70_reset_and_hazards.md R255). -/
def lineEventCount (es : List TraceElem) : Nat := es.countP TraceElem.isLine

/-- `Wait` markers of a trace (70_reset_and_hazards.md R255). -/
def waitCount (es : List TraceElem) : Nat := es.countP fun e => !e.isLine

/-- The least time a trace takes, in the unit of `T_MIN` (70_reset_and_hazards.md R255). -/
def minimumDuration (p : Params) (es : List TraceElem) : Nat := waitCount es * p.tMin

/-- A row of the table of 70_reset_and_hazards.md R255: a trace has the given numbers of line events and `Wait` markers,
and takes at least `waits × T_MIN`. -/
structure Occupies (p : Params) (es : List TraceElem) (lines waits : Nat) : Prop where
  lineEvents : lineEventCount es = lines
  waitMarkers : waitCount es = waits
  duration : minimumDuration p es = waits * p.tMin

/-- A line event with the time it happens (70_reset_and_hazards.md R254). -/
structure TimedEvent where
  time : Nat
  line : Line
  level : Bool
  deriving DecidableEq, Repr

/-- The times of the line events of a trace whose elements take the given times: a line event happens when its turn
comes; a `Wait` passes time (00_scope.md R12). -/
def schedule : Nat → List (TraceElem × Nat) → List TimedEvent
  | _, [] => []
  | now, (.line l v, d) :: rest => ⟨now, l, v⟩ :: schedule (now + d) rest
  | now, (.wait, d) :: rest => schedule (now + d) rest

/-- The timing obligations of 70_reset_and_hazards.md R254, on consecutive line events: data driven before the clock
falls; the clock low for at least `T_MIN`; nothing moves for `T_MIN` after the rising edge. -/
structure MeetsTiming (tMin : Nat) (events : List TimedEvent) : Prop where
  dataFirst : ∀ i (d l : TimedEvent), events[i]? = some d → events[i + 1]? = some l →
    d.line = .data → l.line = .wr → l.level = false → d.time ≤ l.time
  clockLow : ∀ i (l h : TimedEvent), events[i]? = some l → events[i + 1]? = some h →
    l.line = .wr → l.level = false → h.line = .wr → h.level = true → l.time + tMin ≤ h.time
  hold : ∀ i (l h n : TimedEvent), events[i]? = some l → events[i + 1]? = some h → events[i + 2]? = some n →
    l.line = .wr → l.level = false → h.line = .wr → h.level = true → h.time + tMin ≤ n.time

end Sys2Proof.Machine
end

