-- ==== Sys2Proof/Safety.lean ====
section
/-! DEFINITION. What claims are stated with: idle lines (10_state.md R24), a driver ready for a request, the effect of
sending transactions told without line events, and the invariant of the machine. -/

namespace Sys2Proof.Machine

/-- The idle levels: `pin[CS] = 1`, `pin[WR] = 1`, `pin[DATA]` 0 or 1 (10_state.md R24). -/
def Pins.idle (p : Pins) : Prop := p.cs = .high ∧ p.wr = .high ∧ p.data ≠ .undriven

/-- No transaction open at the receiver (20_memory.md R64). -/
def Receiver.idle (r : Receiver) : Prop := r.isOpen = false ∧ r.bits = []

/-- A configured, idle driver: what every state between two requests is (10_state.md R24). -/
structure State.Ready (s : State) : Prop where
  seqIdle : s.seq = .idle
  configured : s.cfg = true
  pinsIdle : s.pins.idle
  rxIdle : s.rx.idle

/-- A safe run: the receiver has seen nothing this spec gives no meaning (20_memory.md R69). -/
def State.Safe (s : State) : Prop := s.rx.fault = false

/-- The level of `pin[DATA]` after some bits: the last one's (10_state.md R24). -/
def lastLevel (before : Level) (bits : List Bool) : Level :=
  match bits.getLast? with
  | some b => Level.ofBool b
  | none => before

/-- Sending transactions, told transaction by transaction: the receiver gets each as it was encoded
(20_memory.md R70), the trace grows by their wire forms (30_encoding.md R98), the lines end idle. -/
def afterSending (ts : List Transaction) (s : State) : State :=
  { s with
    pins := ⟨.high, .high, lastLevel s.pins.data (ts.flatMap Transaction.frameBits)⟩
    rx := { ts.foldl (fun r t => r.apply t) s.rx with isOpen := false, bits := [] }
    trace := s.trace ++ ts.flatMap wireEvents }

/-- The transactions of a PUT_CHAR (43_glyph_text.md R173). -/
def charTransactions (p : Params) (digit ch : Nat) : List Transaction :=
  [0, 1, 2, 3].map fun i =>
    .write (addressField (digitAddress digit i)) [nibbleField (maskNibble (glyphRead p ch) i)]

/-- The transactions of a PUT_STRING (43_glyph_text.md R175). -/
def stringTransactions (p : Params) (text : List Nat) : List Transaction :=
  (List.range Config.numDigits).flatMap fun k => charTransactions p k (stringChar text k)

/-- The transaction of a bulk fill (42_display_ram.md R153, R154). -/
def bulkTransaction (p : Params) (v : Nibble) : Transaction := .write 0 (List.replicate p.bulkNibbles v)

/-- The transactions of an INIT (44_device_lifecycle.md R191). -/
def initTransactions (p : Params) : List Transaction :=
  [.cmd 0x01, .cmd 0x03, .cmd 0x18, .cmd 0x08, .cmd 0x90, .cmd 0xA0, bulkTransaction p 0x0]

/-- The eight host operations (30_encoding.md R93). -/
def isHostOperation : Instr → Bool
  | .init | .sendCommand _ | .writeNibble _ _ _ | .writeBurst _ _ | .setAll _ | .clear | .putChar _ _
  | .putString _ => true
  | .command _ | .write _ _ | .writeBurstFrame _ _ | .reservedTag _ | .cmdSysDis | .cmdSysEn | .cmdLcdOff | .cmdLcdOn
  | .cmdToneOff | .cmdRc32k | .cmdExt32k | .cmdIrqDis | .cmdTimebase1hz | .reservedOp _ | .emitBit _ | .emitWord _ _
  | .csAssert | .csRelease | .writeAddr _ _ => false

/-- The five internal primitives (30_encoding.md R95). -/
def isPrimitive : Instr → Bool
  | .emitBit _ | .emitWord _ _ | .csAssert | .csRelease | .writeAddr _ _ => true
  | .command _ | .write _ _ | .writeBurstFrame _ _ | .reservedTag _ | .cmdSysDis | .cmdSysEn | .cmdLcdOff | .cmdLcdOn
  | .cmdToneOff | .cmdRc32k | .cmdExt32k | .cmdIrqDis | .cmdTimebase1hz | .init | .sendCommand _ | .writeNibble _ _ _
  | .writeBurst _ _ | .setAll _ | .clear | .putChar _ _ | .putString _ | .reservedOp _ => false

/-- The wire frames (30_encoding.md section 1). -/
def isFrame : Instr → Bool
  | .command _ | .write _ _ | .writeBurstFrame _ _ | .reservedTag _ | .cmdSysDis | .cmdSysEn | .cmdLcdOff | .cmdLcdOn
  | .cmdToneOff | .cmdRc32k | .cmdExt32k | .cmdIrqDis | .cmdTimebase1hz => true
  | .init | .sendCommand _ | .writeNibble _ _ _ | .writeBurst _ _ | .setAll _ | .clear | .putChar _ _ | .putString _
  | .reservedOp _ | .emitBit _ | .emitWord _ _ | .csAssert | .csRelease | .writeAddr _ _ => false

/-- The display-RAM addresses a transaction stores to when its burst stays within the 64 cells (20_memory.md R66). -/
def cellsOf : Transaction → List Nat
  | .cmd _ => []
  | .write addr data => (List.range data.length).map fun i => addr.toNat + i

/-- The display-RAM addresses the release of chip-select stores to: those of the transaction the receiver has sampled,
if one is open (20_memory.md R64, R65). -/
def cellsReleased (s : State) : List Nat :=
  if s.pins.cs = .low ∧ s.rx.isOpen = true then
    match parseFrame s.rx.bits with
    | some t => cellsOf t
    | none => []
  else []

/-- The display-RAM addresses an instruction stores to when its burst stays within the 64 cells, by the same functions
its meaning uses; none for an instruction that stores nothing (20_memory.md R50, R66). -/
def cellsStored (s : State) : Instr → List Nat
  | .write addr _ => [addr.toNat]
  | .writeBurstFrame addr data => (List.range data.length).map fun i => addr.toNat + i
  | .writeAddr addr _ => [(addressField addr).toNat]
  | .writeNibble digit nibbleIndex _ =>
    if digitInBounds digit nibbleIndex = true then [(addressField (digitAddress digit nibbleIndex)).toNat] else []
  | .writeBurst startAddr nibbles => (List.range nibbles.length).map fun i => (addressField startAddr).toNat + i
  | .setAll _ | .clear | .init => List.range s.params.bulkNibbles
  | .putChar digit _ =>
    if digit < Config.numDigits then [0, 1, 2, 3].map fun i => (addressField (digitAddress digit i)).toNat else []
  | .putString _ => List.range Config.digitCells
  | .csRelease => cellsReleased s
  | .command _ | .reservedTag _ | .cmdSysDis | .cmdSysEn | .cmdLcdOff | .cmdLcdOn | .cmdToneOff | .cmdRc32k
  | .cmdExt32k | .cmdIrqDis | .cmdTimebase1hz | .sendCommand _ | .reservedOp _ | .emitBit _ | .emitWord _ _
  | .csAssert => []

/-- The lines and the open transaction as the first `k` events of a course leave them, from idle lines, or from lines
not yet driven when the operation is INIT (10_state.md R24, R27, R34). -/
def MidOperation (op : Instr) (es : List TraceElem) (k : Nat) (s : State) : Prop :=
  ∃ w : Pins × Receiver, (w.1.idle ∨ op = .init ∧ w.1 = Pins.atReset) ∧ w.2.idle ∧
    (wireRun w (es.take k)).1 = s.pins ∧ (wireRun w (es.take k)).2.isOpen = s.rx.isOpen ∧
    (wireRun w (es.take k)).2.bits = s.rx.bits

/-- The machine's invariant. -/
structure State.Inv (s : State) : Prop where
  /-- the display RAM is in its canonical form (log 18) -/
  ramWf : s.rx.ram.wf
  /-- the handle's lines are pairwise different (10_state.md R25) -/
  linesDistinct : s.handle.distinct = true
  /-- before INIT nothing is driven, nothing was sent and no operation runs (70_reset_and_hazards.md R241, R244, R247) -/
  unconfigured : s.cfg = false → s.pins = Pins.atReset ∧ s.seq = .idle ∧ s.trace = [] ∧ s.rx.idle
  /-- the idle invariant (10_state.md R24) -/
  idleLines : s.cfg = true → s.seq = .idle → s.pins.idle ∧ s.rx.idle
  /-- a busy sequencer stands inside its operation's course (10_state.md R27) -/
  busyInside : ∀ op k, s.seq = .busy op k → s.cfg = true ∧
    ∃ es, busyPlan? s.params op = some (.run es) ∧ k < es.length ∧ MidOperation op es k s
  /-- "`cfg = true` means all three records hold" (10_state.md R26), where a second INIT is not allowed (log 15) -/
  linesConfigured : s.cfg = true → s.params.allowReinit = false →
    s.cfgLines = ⟨.configured, .configured, .configured⟩

end Sys2Proof.Machine
end

