-- ==== Sys2Proof/Certificates/Slice0/Obligations.lean ====
section
/-! DEFINITION. The statements about the model. Each docstring names the rule or section of spec/ it rests on. "log n" is
notes/assumptions/n.md. -/

open Sys2Proof Sys2Proof.Machine

/-! ### Encodings -/

/-- 30_encoding.md, 20_memory.md: decoding what was encoded gives the instruction back, at every `OPERAND_BITS`
(00_scope.md section 3; its layout at other widths than 8: log 27), for every well-formed instruction that has an
encoding, up to the two overlaps of the table (log 10), whose two spellings have one meaning in every state;
and exactly the primitives have no encoding. -/
def Obligations.DecodeOfEncodeIsTheRow : Prop :=
  ∀ (n : Nat) (i : Instr), i.wellFormed n = true →
    (isPrimitive i = true → encode n i = none) ∧
    (isPrimitive i = false → ∃ c, encode n i = some c ∧ decode n c = .ok i.canonical) ∧
    (∀ s : State, exec i.canonical s = exec i s)

/-- 20_memory.md R70 (derived there): the receiver's decoding recovers exactly the transaction that was encoded, for
every command and every WRITE with at least one nibble. -/
def Obligations.ReceiverRecoversEveryFrame : Prop :=
  (∀ code : CommandCode, parseFrame (Transaction.cmd code).frameBits = some (.cmd code)) ∧
  (∀ (addr : Address) (data : List Nibble), data ≠ [] →
    parseFrame (Transaction.write addr data).frameBits = some (.write addr data))

/-- 20_memory.md section 7: a bit list the receiver reads as a transaction is that transaction's frame, bit for bit, so
no bit is dropped and no two bit lists carry one transaction. -/
def Obligations.ReceivedBitsAreTheFrame : Prop :=
  ∀ (bits : List Bool) (t : Transaction), parseFrame bits = some t → bits = t.frameBits

/-- 30_encoding.md R86: the nine known commands, each with its frame bits and its word W. -/
def Obligations.KnownCommandCodes : Prop :=
  [Instr.cmdSysDis, .cmdSysEn, .cmdLcdOff, .cmdLcdOn, .cmdToneOff, .cmdRc32k, .cmdExt32k, .cmdIrqDis,
      .cmdTimebase1hz].map Instr.namedCode? =
    [some 0x00, some 0x01, some 0x02, some 0x03, some 0x08, some 0x18, some 0x1C, some 0x90, some 0xA0] ∧
  ∀ (n : Nat) (i : Instr) (code : CommandCode), i.namedCode? = some code → ∃ bits,
    encode n i = some (.frame bits) ∧ bits.length = 11 ∧ bits = [true, false, false] ++ msbFirst code.toNat 8 ∧
    valueMsbFirst bits = 0x400 + code.toNat

/-- 30_encoding.md R81: the COMMAND frame is `msb_first(0b100, 3) ++ msb_first(c, 8) = msb_first(W, 11)` with
`W = 0x400 | c`; match 0x400, mask 0x700. -/
def Obligations.CommandFrameLayout : Prop :=
  ∀ code : Nat,
    (Transaction.cmd (commandField code)).frameBits = msbFirst 0b100 3 ++ msbFirst (code &&& 0xFF) 8 ∧
    (Transaction.cmd (commandField code)).frameBits = msbFirst (0x400 ||| (code &&& 0xFF)) 11 ∧
    (0x400 ||| (code &&& 0xFF)) &&& 0x700 = 0x400

/-- 30_encoding.md R82: the single WRITE frame is the 13-bit number `0x1400 | (a << 4) | d`, most significant bit first;
match 0x1400, mask 0x1C00. -/
def Obligations.SingleWriteFrameLayout : Prop :=
  ∀ addr value : Nat,
    (Transaction.write (addressField addr) [nibbleField value]).frameBits =
      msbFirst 0b101 3 ++ msbFirst (addr &&& 0x3F) 6 ++ msbFirst (value &&& 0x0F) 4 ∧
    (Transaction.write (addressField addr) [nibbleField value]).frameBits =
      msbFirst (0x1400 ||| ((addr &&& 0x3F) <<< 4) ||| (value &&& 0x0F)) 13 ∧
    (0x1400 ||| ((addr &&& 0x3F) <<< 4) ||| (value &&& 0x0F)) &&& 0x1C00 = 0x1400

/-- Words written out from 30_encoding.md and 95_test_vectors.md decode to what they stand for. -/
def Obligations.SampleWordsDecode : Prop :=
  decodeTableWord 16 0x455 = some (.command 0x55) ∧
  decodeTableWord 16 0x401 = some .cmdSysEn ∧
  decodeTableWord 16 0x14D6 = some (.write 13 6) ∧
  decodeFrame [true, false, true, false, false, true, false, false, false, true, false, true, false, false, true, false,
    true] = .ok (.writeBurstFrame 8 [0xA, 0x5]) ∧
  decodeFrame [true, true, false, false] = .ok (.reservedTag [true, true, false, false]) ∧
  decodeTableWord 32 0x0000000 = some .init ∧
  decodeTableWord 32 0x209031B = some (.writeNibble 9 3 0x1B) ∧
  decodeRequest 8 0x3080000 [0x0A, 0x05] = .writeBurst 8 [10, 5] ∧
  decodeTableWord 32 0x6024300 = some (.putChar 2 0x43) ∧
  decodeTableWord 32 0xF000000 = some (.reservedOp 15)

/-! ### The step -/

/-- What the step adds around `exec` (log 1, log 8): it takes what stands at the port (a request also brings the level of
`cfg_ok`), or, idle with nothing there, the host's next request. At operation grain it is `exec` of the decoded
instruction; at event grain a request's instruction is launched (what that comes to: EventGrainRefinesOperationGrain),
and an operation in progress performs its next trace element, the last one completing it. A bit list that is no row of the
table is forgotten by the receiver (20_memory.md R67); with nothing to do nothing changes. What a request word decodes to
is well formed. -/
def Obligations.StepRunsTheDecodedInstruction : Prop :=
  (∀ (s : State) (r : Request), s.port = some (.request r) →
    (s.grain = .operation →
      step s = exec (decodeRequest s.params.operandBits r.word r.list) { s with port := none, cfgOk := r.cfgOk }) ∧
    (s.grain = .event →
      step s = launch (decodeRequest s.params.operandBits r.word r.list) { s with port := none, cfgOk := r.cfgOk })) ∧
  (∀ (s : State) (bits : List Bool) (i : Instr), s.port = some (.frame bits) → decodeFrame bits = .ok i →
    step s = exec i { s with port := none }) ∧
  (∀ (s : State) (bits : List Bool) (e : Reject), s.port = some (.frame bits) → decodeFrame bits = .error e →
    step s = .next { s with port := none, rx := s.rx.forget }) ∧
  (∀ (s : State) (r : Request) (rs : List Request), s.port = none → s.seq = .idle → s.script = r :: rs →
    (s.grain = .operation →
      step s = exec (decodeRequest s.params.operandBits r.word r.list) { s with script := rs, cfgOk := r.cfgOk }) ∧
    (s.grain = .event →
      step s = launch (decodeRequest s.params.operandBits r.word r.list) { s with script := rs, cfgOk := r.cfgOk })) ∧
  (∀ (s : State) (op : Instr) (k : Nat) (es : List TraceElem) (e : TraceElem), s.port = none → s.seq = .busy op k →
    busyPlan? s.params op = some (.run es) → es[k]? = some e →
    (k + 1 < es.length → step s = .next { play [e] s with seq := .busy op (k + 1) }) ∧
    (k + 1 = es.length → step s = .next (complete .ok (play [e] s)))) ∧
  (∀ s : State, s.port = none → s.seq = .idle → s.script = [] → step s = .next s) ∧
  (∀ (n : Nat) (word : RequestWord) (list : List Nat), (decodeRequest n word list).wellFormed n = true)

/-- 10_state.md R27, 92_eei_decisions.md D31: running a host operation one line event a step gives the state that running
it as one atomic step gives, after as many steps as it has trace elements; and what one grain refuses the other
refuses. First from the launch of an operation, then from the step that takes a request, at the port or the host's next:
that step and one more for each trace element. -/
def Obligations.EventGrainRefinesOperationGrain : Prop :=
  (∀ (i : Instr) (s : State), isHostOperation i = true → s.seq = .idle → s.port = none → s.grain = .event →
    (∀ t, exec i s = .next t → ∃ u, launch i s = .next u ∧
      core.run (t.trace.length - s.trace.length) u = .next t) ∧
    (∀ r, exec i s = .refused r → launch i s = .refused r)) ∧
  (∀ (s : State) (r : Request), s.grain = .event → s.seq = .idle → s.port = some (.request r) →
    (∀ t, exec (decodeRequest s.params.operandBits r.word r.list) { s with port := none, cfgOk := r.cfgOk } = .next t →
      core.run (t.trace.length - s.trace.length + 1) s = .next t) ∧
    (∀ q, exec (decodeRequest s.params.operandBits r.word r.list) { s with port := none, cfgOk := r.cfgOk } =
      .refused q → step s = .refused q)) ∧
  (∀ (s : State) (r : Request) (rs : List Request), s.grain = .event → s.seq = .idle → s.port = none →
    s.script = r :: rs →
    (∀ t, exec (decodeRequest s.params.operandBits r.word r.list) { s with script := rs, cfgOk := r.cfgOk } = .next t →
      core.run (t.trace.length - s.trace.length + 1) s = .next t) ∧
    (∀ q, exec (decodeRequest s.params.operandBits r.word r.list) { s with script := rs, cfgOk := r.cfgOk } =
      .refused q → step s = .refused q))

/-! ### Reset, construction, invariants -/

/-- 10_state.md section 9 (the spec's own decisions D11, D24, D26): what reset leaves. -/
def Obligations.ResetLeavesTheSpecsValues : Prop :=
  State.reset.pins = ⟨.undriven, .undriven, .undriven⟩ ∧ State.reset.cfg = false ∧ State.reset.seq = .idle ∧
  State.reset.status = none ∧ State.reset.trace = [] ∧ (∀ a, State.reset.rx.ram.read a = none) ∧
  State.reset.rx.bits = [] ∧ State.reset.rx.isOpen = false ∧ State.reset.rx.log = [] ∧ State.reset.rx.fault = false

/-- 44_device_lifecycle.md (handle construction, D25): a block exists exactly for three pairwise different lines; its
state is the one of reset with those lines. -/
def Obligations.ConstructionNeedsDistinctLines : Prop :=
  ∀ h : Handle,
    (h.cs ≠ h.wr ∧ h.cs ≠ h.data ∧ h.wr ≠ h.data → construct h = .next { State.reset with handle := h }) ∧
    (¬ (h.cs ≠ h.wr ∧ h.cs ≠ h.data ∧ h.wr ≠ h.data) → construct h = .refused .linesNotDistinct)

/-- The invariant holds at reset. -/
def Obligations.ResetMeetsTheInvariant : Prop := State.reset.Inv

/-- Every step, at either grain and whatever arrives, keeps the invariant: the canonical RAM, the idle lines between
operations (10_state.md R24), the course of the operation in progress, undriven lines before INIT, the line
configuration. -/
def Obligations.EveryStepKeepsTheInvariant : Prop :=
  ∀ s t : State, s.Inv → step s = .next t → t.Inv

/-- 20_memory.md R61, 10_state.md R31, R32: the pin latches and all the receiver holds are what the trace, played from
reset, leaves. Every step keeps this, unless a transaction arrives at the receiver from outside the driver. -/
def Obligations.TraceDeterminesLinesAndReceiver : Prop :=
  ∀ s t : State, (∀ bits, s.port ≠ some (.frame bits)) →
    wireRun (Pins.atReset, Receiver.atReset) s.trace = (s.pins, s.rx) → step s = .next t →
    wireRun (Pins.atReset, Receiver.atReset) t.trace = (t.pins, t.rx)

/-- 10_state.md R26, R27, 44_device_lifecycle.md R197: nothing clears `cfg`; only INIT, with `cfg_ok`, sets it, and then the
three records are configured: of the instructions, and of the steps, whose request it is; the trace only grows; the
handle and the parameters never change. -/
def Obligations.EveryStepKeepsConfigurationAndHistory : Prop :=
  (∀ s t : State, step s = .next t →
    (s.cfg = true → t.cfg = true) ∧
    (s.cfg = false → t.cfg = true →
      t.cfgOk = true ∧ t.cfgLines = ⟨.configured, .configured, .configured⟩ ∧
      ∃ r : Request, (s.port = some (.request r) ∨ s.port = none ∧ s.seq = .idle ∧ s.script.head? = some r) ∧
        decodeRequest s.params.operandBits r.word r.list = .init ∧ r.cfgOk = true) ∧
    (∃ es, t.trace = s.trace ++ es) ∧ t.handle = s.handle ∧ t.params = s.params ∧ t.grain = s.grain) ∧
  (∀ (i : Instr) (s t : State), exec i s = .next t →
    (s.cfg = true → t.cfg = true) ∧ (s.cfg = false → t.cfg = true → i = .init ∧ s.cfgOk = true))

/-- 20_memory.md section 7 (D24): once `rx_fault` is true it stays true, for every instruction and every step. -/
def Obligations.ReceiverFaultIsSticky : Prop :=
  (∀ (i : Instr) (s t : State), s.rx.fault = true → exec i s = .next t → t.rx.fault = true) ∧
  (∀ s t : State, s.rx.fault = true → step s = .next t → t.rx.fault = true)

/-- 20_memory.md R70, 93_implementation_defined.md U4: from a state between requests, no host operation makes the
receiver fault but a burst that passes address 63, given or of `BULK_NIBBLES` above 64 (a size the spec gives no rule for;
what the model does with it is its own choice, log 20). -/
def Obligations.DriverFaultsTheReceiverOnlyPast63 : Prop :=
  ∀ (i : Instr) (s t : State), s.Inv → isHostOperation i = true → exec i s = .next t → s.rx.fault = false →
    t.rx.fault = true →
    (∃ startAddr nibbles, i = .writeBurst startAddr nibbles ∧
      64 < (addressField startAddr).toNat + nibbles.length) ∨
    ((i = .init ∨ i = .clear ∨ ∃ on, i = .setAll on) ∧ 64 < s.params.bulkNibbles)

/-! ### Bit transport -/

/-- 40_bit_transport.md (EMIT_BIT, the spec's decision D5 on where the waits stand): with the lines configured, the bracket
open and the clock high, EMIT_BIT appends data, clock low, wait, clock high, wait; the receiver, if its transaction is
open, samples exactly the level; nothing else changes. -/
def Obligations.EmitBitInsideABracket : Prop :=
  ∀ (level : Bool) (s : State), s.cfg = true → s.pins.cs = .low → s.pins.wr = .high →
    exec (.emitBit level) s = .next { s with
      pins := ⟨.low, .high, Level.ofBool level⟩
      trace := s.trace ++ [.line .data level, .line .wr false, .wait, .line .wr true, .wait]
      rx := if s.rx.isOpen = true then { s.rx with bits := s.rx.bits ++ [level] } else s.rx }

/-- 20_memory.md R63, 95_test_vectors.md BT8: outside a bracket the same events happen and the receiver does nothing;
whatever the levels were. -/
def Obligations.EmitBitOutsideABracketIsNotSampled : Prop :=
  ∀ (level : Bool) (s : State), s.cfg = true → s.pins.cs ≠ .low →
    exec (.emitBit level) s = .next { s with
      pins := ⟨s.pins.cs, .high, Level.ofBool level⟩
      trace := s.trace ++ [.line .data level, .line .wr false, .wait, .line .wr true, .wait] }

/-- 40_bit_transport.md R112: EMIT_WORD is EMIT_BIT of `value[bit_count - 1]` down to `value[0]`, in that order; with no
bits it changes nothing; the bits of `value` from `bit_count` up are never looked at; the last level is `value[0]`; flags
and exceptions none, nothing but the lines, the trace and the sampled bits changes; the bits the
receiver samples are `msb_first(value, bit_count)`. -/
def Obligations.EmitWordIsMostSignificantBitFirst : Prop :=
  ∀ (value bitCount : Nat) (s : State), s.cfg = true →
    exec (.emitWord value 0) s = .next s ∧
    exec (.emitWord (value % 2 ^ bitCount) bitCount) s = exec (.emitWord value bitCount) s ∧
    (∃ u, exec (.emitBit (value.testBit bitCount)) s = .next u ∧
      exec (.emitWord value (bitCount + 1)) s = exec (.emitWord value bitCount) u) ∧
    ∃ t, exec (.emitWord value bitCount) s = .next t ∧
      t = { s with
        pins := t.pins
        trace := s.trace ++ (msbFirst value bitCount).flatMap bitEvents
        rx := { s.rx with bits := t.rx.bits } } ∧
      t.pins.cs = s.pins.cs ∧
      (1 ≤ bitCount → t.pins.data = Level.ofBool (value.testBit 0)) ∧
      (s.pins.cs = .low → s.rx.isOpen = true → t.rx.bits = s.rx.bits ++ msbFirst value bitCount)

/-- 40_bit_transport.md (CS_ASSERT, CS_RELEASE; no wait at either by the spec's decision D7), 20_memory.md R64: from idle
lines CS_ASSERT opens a transaction and touches no other line; with the clock high CS_RELEASE closes it, and the
receiver decodes what it sampled. -/
def Obligations.ChipSelectOpensAndClosesATransaction : Prop :=
  (∀ s : State, s.cfg = true → s.pins.cs = .high → s.pins.wr = .high →
    exec .csAssert s = .next { s with
      pins := { s.pins with cs := .low }
      trace := s.trace ++ [.line .cs false]
      rx := { s.rx with isOpen := true, bits := [] } }) ∧
  (∀ s : State, s.cfg = true → s.pins.cs = .low → s.pins.wr = .high → s.rx.isOpen = true →
    exec .csRelease s = .next { s with
      pins := { s.pins with cs := .high }
      trace := s.trace ++ [.line .cs true]
      rx := { s.rx.receive s.rx.bits with isOpen := false, bits := [] } })

/-- 20_memory.md R64 (log 14): the bracket edges outside the primitives' preconditions. CS_ASSERT with chip-select already
low reopens nothing, CS_RELEASE with it not low closes nothing, and a real edge in mid-pulse sets `rx_fault`. -/
def Obligations.BracketEdgesOutsideTheProtocol : Prop :=
  (∀ s : State, s.cfg = true → s.pins.cs = .low → s.pins.wr ≠ .low →
    exec .csAssert s = .next { s with trace := s.trace ++ [.line .cs false] }) ∧
  (∀ s : State, s.cfg = true → s.pins.cs ≠ .low →
    exec .csRelease s = .next { s with pins := { s.pins with cs := .high }, trace := s.trace ++ [.line .cs true] }) ∧
  (∀ s : State, s.cfg = true → s.pins.wr = .low →
    ∃ t, exec .csAssert s = .next t ∧ t.rx.fault = true) ∧
  (∀ s : State, s.cfg = true → s.pins.wr = .low → s.pins.cs = .low →
    ∃ t, exec .csRelease s = .next t ∧ t.rx.fault = true)

/-- 41_frame_encoder.md (WRITE_ADDR): from idle lines it sends one single WRITE of the masked address and nibble; no flag.
The wire form has 67 trace elements. -/
def Obligations.WriteAddrSendsOneWrite : Prop :=
  ∀ (addr value : Nat) (s : State), s.cfg = true → s.pins.idle →
    exec (.writeAddr addr value) s =
      .next (afterSending [.write (addressField addr) [nibbleField value]] s) ∧
    (wireEvents (.write (addressField addr) [nibbleField value])).length = 67

/-- 40_bit_transport.md, 41_frame_encoder.md: a primitive runs in every state with configured lines, whatever the levels
and the sequencer, and changes the lines, the trace and the receiver only: "`status` is not written by a primitive". -/
def Obligations.PrimitivesChangeOnlyTheWire : Prop :=
  ∀ (i : Instr) (s : State), isPrimitive i = true → s.cfg = true →
    ∃ t, exec i s = .next t ∧ t = { s with pins := t.pins, trace := t.trace, rx := t.rx } ∧
      (∃ es, t.trace = s.trace ++ es)

/-! ### The receiver's frames -/

/-- 20_memory.md section 7, 10_state.md R33 (the model's log 9 gives a frame row the receiver's action): a received
command is logged and has no other effect, named or not, in every state. -/
def Obligations.ReceivedCommandIsLoggedOnly : Prop :=
  (∀ (code : CommandCode) (s : State),
    exec (.command code) s = .next { s with rx := { s.rx with log := s.rx.log ++ [.cmd code] } }) ∧
  (∀ (i : Instr) (code : CommandCode) (s : State), i.namedCode? = some code →
    exec i s = .next { s with rx := { s.rx with log := s.rx.log ++ [.cmd code] } })

/-- 20_memory.md R66: a received WRITE of N nibbles stores nibble i at `a + i`, keeps every other cell, and is logged; when
the pointer would pass 63 the rule past the top applies instead. Single WRITE and burst alike, in every state. -/
def Obligations.ReceivedWriteStoresAscending : Prop :=
  ∀ (addr : Address) (data : List Nibble) (s : State),
    ∃ t, exec (.writeBurstFrame addr data) s = .next t ∧
      t = { s with rx := { s.rx with
              ram := t.rx.ram, log := s.rx.log ++ [.write addr data], fault := t.rx.fault } } ∧
      (addr.toNat + data.length ≤ 64 → t.rx.fault = s.rx.fault ∧
        (∀ i (h : i < data.length), t.rx.ram.read (addr.toNat + i) = some data[i]) ∧
        (∀ a, a < addr.toNat ∨ addr.toNat + data.length ≤ a → t.rx.ram.read a = s.rx.ram.read a)) ∧
      (64 < addr.toNat + data.length → t.rx.fault = true ∧ ∀ a, t.rx.ram.read a = none) ∧
      (∀ d, data = [d] → exec (.write addr d) s = .next t)

/-- 20_memory.md section 7 (D22): a closed transaction with a reserved tag sets `rx_fault`, makes every cell `unknown` and
logs nothing. -/
def Obligations.ReservedTagFaultsTheReceiver : Prop :=
  ∀ (bits : List Bool) (s : State),
    ∃ t, exec (.reservedTag bits) s = .next t ∧ t.rx.fault = true ∧ (∀ a, t.rx.ram.read a = none) ∧
      t = { s with rx := { s.rx with fault := t.rx.fault, ram := t.rx.ram } }

/-- 20_memory.md section 5: sending the same WRITE twice leaves the RAM as after sending it once. -/
def Obligations.ReceivedWriteIsIdempotent : Prop :=
  ∀ (addr : Address) (data : List Nibble) (s t u : State), s.rx.ram.wf →
    exec (.writeBurstFrame addr data) s = .next t → exec (.writeBurstFrame addr data) t = .next u →
    addr.toNat + data.length ≤ 64 → u.rx.ram = t.rx.ram

/-! ### Host operations: what each does -/

/-- 41_frame_encoder.md (SEND_COMMAND): between requests it always completes with OK, after one COMMAND of the masked code;
the receiver logs it and keeps its RAM. -/
def Obligations.SendCommandCompletes : Prop :=
  ∀ (code : Nat) (s : State), s.Ready →
    exec (.sendCommand code) s = .next { s with
      pins := ⟨.high, .high, Level.ofBool (code.testBit 0)⟩
      trace := s.trace ++ wireEvents (.cmd (commandField code))
      rx := { s.rx with log := s.rx.log ++ [.cmd (commandField code)] }
      status := some .ok }

/-- 42_display_ram.md (WRITE_NIBBLE): between requests, with digit below 10 and nibble index below 4, it completes with OK
after one WRITE at `4 * digit + nibble_index`; that cell holds `value & 0x0F`, every other cell what it held. -/
def Obligations.WriteNibbleCompletes : Prop :=
  ∀ (digit nibbleIndex value : Nat) (s : State), s.Ready → digit < 10 → nibbleIndex < 4 →
    ∃ t, exec (.writeNibble digit nibbleIndex value) s = .next t ∧
      t = complete .ok (afterSending [.write (addressField (4 * digit + nibbleIndex)) [nibbleField value]] s) ∧
      t.rx.ram.read (4 * digit + nibbleIndex) = some (nibbleField value) ∧
      (∀ a, a ≠ 4 * digit + nibbleIndex → t.rx.ram.read a = s.rx.ram.read a)

/-- 42_display_ram.md R152: a WRITE_NIBBLE out of bounds is rejected before the wire is touched: InvalidArgument, and
nothing else changes. -/
def Obligations.WriteNibbleOutOfBoundsTouchesNothing : Prop :=
  ∀ (digit nibbleIndex value : Nat) (s : State), s.seq = .idle → s.cfg = true → 10 ≤ digit ∨ 4 ≤ nibbleIndex →
    exec (.writeNibble digit nibbleIndex value) s = .next { s with status := some .invalidArgument }

/-- 41_frame_encoder.md (WRITE_BURST): between requests, with at least one nibble, it always completes with OK after one
WRITE of the masked start address and nibbles, whatever the range. -/
def Obligations.WriteBurstCompletes : Prop :=
  ∀ (startAddr : Nat) (nibbles : List Nat) (s : State), s.Ready → nibbles ≠ [] →
    exec (.writeBurst startAddr nibbles) s =
      .next (complete .ok (afterSending [.write (addressField startAddr) (nibbles.map nibbleField)] s))

/-- 42_display_ram.md (SET_ALL, CLEAR): between requests, with a legal `BULK_NIBBLES`, each completes with OK after one
burst from address 0; the cells below `BULK_NIBBLES` hold the value, the others what they held. -/
def Obligations.BulkFillsComplete : Prop :=
  ∀ (i : Instr) (v : Nibble) (s : State),
    (i = .clear ∧ v = 0x0) ∨ (∃ on, i = .setAll on ∧ v = if on ≠ 0 then 0xF else 0x0) →
    s.Ready → s.params.legal = true →
    ∃ t, exec i s = .next t ∧ t = complete .ok (afterSending [bulkTransaction s.params v] s) ∧
      (∀ a, a < s.params.bulkNibbles → t.rx.ram.read a = some v) ∧
      (∀ a, s.params.bulkNibbles ≤ a → t.rx.ram.read a = s.rx.ram.read a)

/-- 43_glyph_text.md (PUT_CHAR): between requests, with digit below 10 and a code the configuration takes, it completes with
OK after four WRITEs of the mask's nibbles, low nibble first, at the digit's four addresses. -/
def Obligations.PutCharCompletes : Prop :=
  ∀ (digit ch : Nat) (s : State), s.Ready → digit < 10 → (s.params.glyphHighCodes = .refuse → ch ≤ 127) →
    exec (.putChar digit ch) s = .next (complete .ok (afterSending (charTransactions s.params digit ch) s))

/-- 43_glyph_text.md R174: after `PUT_CHAR d, c` with `d ≤ 9` and no receiver fault, the four cells of digit d, joined low
nibble first, are `GlyphRead(c)`, for every glyph table. -/
def Obligations.PutCharRoundTrip : Prop :=
  ∀ (digit ch : Nat) (s : State), s.Ready → s.Safe → digit ≤ 9 → (s.params.glyphHighCodes = .refuse → ch ≤ 127) →
    ∃ (t : State) (n0 n1 n2 n3 : Nibble), exec (.putChar digit ch) s = .next t ∧ t.Safe ∧
      t.rx.ram.read (4 * digit) = some n0 ∧ t.rx.ram.read (4 * digit + 1) = some n1 ∧
      t.rx.ram.read (4 * digit + 2) = some n2 ∧ t.rx.ram.read (4 * digit + 3) = some n3 ∧
      n0.setWidth 16 ||| (n1.setWidth 16 <<< 4) ||| (n2.setWidth 16 <<< 8) ||| (n3.setWidth 16 <<< 12) =
        glyphRead s.params ch

/-- 43_glyph_text.md (PUT_CHAR on a bad digit, D21): InvalidArgument, and nothing else changes. -/
def Obligations.PutCharBadDigitTouchesNothing : Prop :=
  ∀ (digit ch : Nat) (s : State), s.seq = .idle → s.cfg = true → 10 ≤ digit →
    (s.params.glyphHighCodes = .refuse → ch ≤ 127) →
    exec (.putChar digit ch) s = .next { s with status := some .invalidArgument }

/-- 43_glyph_text.md (PUT_STRING): between requests, for every string whose first ten codes the configuration takes, it
completes with OK after forty WRITEs; the four cells of each digit k hold the glyph of `s[k]`, or zeros beyond the
string's end; cells 40 to 63 keep what they held. -/
def Obligations.PutStringCompletes : Prop :=
  ∀ (text : List Nat) (s : State), s.Ready →
    (s.params.glyphHighCodes = .refuse → ∀ k, k < 10 → ∀ ch, text[k]? = some ch → ch ≤ 127) →
    ∃ t, exec (.putString text) s = .next t ∧
      t = complete .ok (afterSending (stringTransactions s.params text) s) ∧
      (∀ k i, k < 10 → i < 4 → ∀ ch, text[k]? = some ch →
        t.rx.ram.read (4 * k + i) = some (nibbleField (maskNibble (glyphRead s.params ch) i))) ∧
      (∀ k i, k < 10 → i < 4 → text.length ≤ k → t.rx.ram.read (4 * k + i) = some 0) ∧
      (∀ a, 40 ≤ a → t.rx.ram.read a = s.rx.ram.read a)

/-- 43_glyph_text.md R176: `put_string("42")` writes glyph '4' at digit 0, '2' at digit 1 and blank at digits 2 to 9, in
that left-to-right order, for every glyph table. That '4' is code 0x34 and '2' code 0x32 is ASCII, which the model
presumes (log 21). -/
def Obligations.PutString42 : Prop :=
  ∀ s : State, s.Ready →
    ∃ t, exec (.putString [0x34, 0x32]) s = .next t ∧ t.status = some .ok ∧
      t.rx.log = s.rx.log ++
        ((List.range 4).map fun i => Transaction.write (BitVec.ofNat 6 i)
          [(s.params.glyph.d4.extractLsb' (4 * i) 4)]) ++
        ((List.range 4).map fun i => Transaction.write (BitVec.ofNat 6 (4 + i))
          [(s.params.glyph.d2.extractLsb' (4 * i) 4)]) ++
        ((List.range 32).map fun i => Transaction.write (BitVec.ofNat 6 (8 + i)) [0x0])

/-- 44_device_lifecycle.md (INIT): on lines not yet driven or idle, with a legal `BULK_NIBBLES`, the platform's yes, and
either a first INIT or `ALLOW_REINIT`, it completes with OK: the lines configured, the idle levels, exactly the six
commands in their order, then one clear burst. -/
def Obligations.InitCompletes : Prop :=
  ∀ s : State, s.seq = .idle → s.cfg = false ∨ s.params.allowReinit = true → s.handle.distinct = true →
    s.cfgOk = true → s.params.legal = true → s.pins = Pins.atReset ∨ s.pins.idle → s.rx.idle →
    exec .init s = .next { s with
      cfg := true
      cfgLines := ⟨.configured, .configured, .configured⟩
      pins := ⟨.high, .high, .low⟩
      trace := s.trace ++ [.line .cs true, .line .wr true, .line .data false] ++
        (initTransactions s.params).flatMap wireEvents
      rx := (initTransactions s.params).foldl (fun r t => r.apply t) s.rx
      status := some .ok }

/-- 70_reset_and_hazards.md (the state after INIT from reset, derived there): the cells below `BULK_NIBBLES` are 0 and the
others `unknown`, nothing faulted, the log holds the six commands and the clear, for every legal parameter and every
handle. -/
def Obligations.InitFromReset : Prop :=
  ∀ (p : Params) (h : Handle), p.legal = true → h.distinct = true →
    ∃ t, exec .init { State.reset with params := p, handle := h, cfgOk := true } = .next t ∧
      t.cfg = true ∧ t.cfgLines = ⟨.configured, .configured, .configured⟩ ∧ t.pins = ⟨.high, .high, .low⟩ ∧
      t.seq = .idle ∧ t.status = some .ok ∧ t.rx.fault = false ∧
      t.rx.log = [.cmd 0x01, .cmd 0x03, .cmd 0x18, .cmd 0x08, .cmd 0x90, .cmd 0xA0,
        .write 0 (List.replicate p.bulkNibbles 0)] ∧
      (∀ a, a < p.bulkNibbles → t.rx.ram.read a = some 0) ∧ (∀ a, p.bulkNibbles ≤ a → t.rx.ram.read a = none)

/-- 44_device_lifecycle.md (a rejected line configuration, D13; log 5, log 15): ConfigFailure, free values in the
configuration records, nothing else. The statement holds for every value the records may take. -/
def Obligations.InitRejectedByThePlatform : Prop :=
  ∀ s : State, s.seq = .idle → s.cfg = false ∨ s.params.allowReinit = true → s.handle.distinct = true →
    s.cfgOk = false →
    ∃ lines, exec .init s = .next { s with
      cfgLines := lines, draws := s.draws + 1, status := some .configFailure }

/-- 42_display_ram.md (the document's property, D8): with a bulk size that covers the forty addressable nibbles and no
receiver fault, CLEAR; SET_ALL on; CLEAR leaves every addressable nibble 0, having written 0xF everywhere; and a second
CLEAR leaves the RAM as the first. -/
def Obligations.ClearSetAllClear : Prop :=
  ∀ (on : Nat) (s : State), s.Ready → s.Safe → s.rx.ram.wf → s.params.coversDigits = true → on ≠ 0 →
    ∃ s1 s2 s3 s4, exec .clear s = .next s1 ∧ exec (.setAll on) s1 = .next s2 ∧ exec .clear s2 = .next s3 ∧
      exec .clear s1 = .next s4 ∧ s3.Safe ∧
      (∀ a, a < 40 → s2.rx.ram.read a = some 0xF) ∧ (∀ a, a < 40 → s3.rx.ram.read a = some 0x0) ∧
      s4.rx.ram = s1.rx.ram

/-- 30_encoding.md R83: a burst of one nibble is the single WRITE on the wire; so WRITE_BURST of one nibble is WRITE_ADDR
and a completion with OK. -/
def Obligations.BurstOfOneIsTheSingleWrite : Prop :=
  ∀ (startAddr v : Nat) (s t : State), s.seq = .idle → exec (.writeAddr startAddr v) s = .next t →
    exec (.writeBurst startAddr [v]) s = .next (complete .ok t)

/-- 41_frame_encoder.md R133, 60_exceptions.md R212: operands wider than their field are truncated and never a failure, in
every state. -/
def Obligations.WideOperandsAreMasked : Prop :=
  ∀ (s : State),
    (∀ code, exec (.sendCommand code) s = exec (.sendCommand (code % 256)) s) ∧
    (∀ a ns, exec (.writeBurst a ns) s = exec (.writeBurst (a % 64) (ns.map (· % 16))) s) ∧
    (∀ d n v, exec (.writeNibble d n v) s = exec (.writeNibble d n (v % 16)) s) ∧
    (∀ a v, exec (.writeAddr a v) s = exec (.writeAddr (a % 64) (v % 16)) s)

/-- 43_glyph_text.md (D16, D18): codes without an entry are blank, the space among the blanks, and each of the 17 open
entries is read as the table has it. -/
def Obligations.GlyphReadIsTotal : Prop :=
  ∀ (p : Params) (ch : Nat),
    (ch ∉ [0x2D, 0x30, 0x31, 0x32, 0x33, 0x34, 0x35, 0x36, 0x37, 0x38, 0x39, 0x41, 0x42, 0x43, 0x44, 0x45, 0x46] →
      glyphRead p ch = 0x0000) ∧
    [0x2D, 0x30, 0x31, 0x32, 0x33, 0x34, 0x35, 0x36, 0x37, 0x38, 0x39, 0x41, 0x42, 0x43, 0x44, 0x45, 0x46].map
        (glyphRead p) =
      [p.glyph.hyphen, p.glyph.d0, p.glyph.d1, p.glyph.d2, p.glyph.d3, p.glyph.d4, p.glyph.d5, p.glyph.d6, p.glyph.d7,
        p.glyph.d8, p.glyph.d9, p.glyph.letterA, p.glyph.letterB, p.glyph.letterC, p.glyph.letterD, p.glyph.letterE,
        p.glyph.letterF]

/-- 20_memory.md R51: the address function on its domain: below 40, unchanged by the 6-bit mask, one to one, with inverse
`d = a >> 2`, `n = a & 3`, onto 0 to 39. -/
def Obligations.AddressFunction : Prop :=
  (∀ d n, d < 10 → n < 4 → digitAddress d n = 4 * d + n ∧ digitAddress d n < 40 ∧
    (addressField (digitAddress d n)).toNat = digitAddress d n ∧
    digitAddress d n >>> 2 = d ∧ digitAddress d n &&& 3 = n) ∧
  (∀ d n d' n', d < 10 → n < 4 → d' < 10 → n' < 4 → digitAddress d n = digitAddress d' n' → d = d' ∧ n = n') ∧
  (∀ a, a < 40 → a >>> 2 < 10 ∧ a &&& 3 < 4 ∧ digitAddress (a >>> 2) (a &&& 3) = a)

/-! ### Statuses, refusals, frames -/

/-- 60_exceptions.md sections 1 and 3: which operation can end with which status, and when: a host operation's new status is
OK, or InvalidArgument from WRITE_NIBBLE and PUT_CHAR exactly on their bounds, or ConfigFailure from INIT exactly on the
platform's no; a failure leaves the trace, the lines, the receiver and `cfg` as they were (that `cfg` stays true after a
rejected second INIT is the model's choice, log 15); a primitive raises nothing. -/
def Obligations.CompletionStatusCauses : Prop :=
  ∀ (i : Instr) (s t : State), exec i s = .next t →
    (isHostOperation i = true →
      (t.status = some .ok ∨ t.status = some .invalidArgument ∨ t.status = some .configFailure) ∧
      (t.status = some .invalidArgument ↔
        (∃ d n v, i = .writeNibble d n v ∧ (10 ≤ d ∨ 4 ≤ n)) ∨ (∃ d ch, i = .putChar d ch ∧ 10 ≤ d)) ∧
      (t.status = some .configFailure ↔ i = .init ∧ s.cfgOk = false) ∧
      (t.status ≠ some .ok → t.trace = s.trace ∧ t.pins = s.pins ∧ t.rx = s.rx ∧ t.cfg = s.cfg)) ∧
    (isPrimitive i = true → t.status = s.status)

/-- 60_exceptions.md R215: a failure is precise: when a host operation ends with a failure status, `seq` is `Idle` and no
pin, trace element, receiver state or `cfg` changed; nor anything else, but for the records `cfg_line` that the
platform's rejection leaves unspecified (44_device_lifecycle.md R192) and the counter of free draws (log 5). -/
def Obligations.FailureLeavesNoTrace : Prop :=
  ∀ (i : Instr) (s t : State), isHostOperation i = true → exec i s = .next t → t.status ≠ some .ok →
    t = { s with status := t.status, seq := .idle, cfgLines := t.cfgLines, draws := t.draws } ∧ t.seq = .idle ∧
    (i ≠ .init → t.cfgLines = s.cfgLines ∧ t.draws = s.draws)

/-- 60_exceptions.md section 4, 70_reset_and_hazards.md R247, 44_device_lifecycle.md R197 (D11, D12, D25, D34; gate order:
log 19; for the primitives log 12): the refusals that do not look at operands. -/
def Obligations.RequestsThatAreRefused : Prop :=
  (∀ (i : Instr) (s : State), isHostOperation i = true → s.seq ≠ .idle → exec i s = .refused .busy) ∧
  (∀ (s : State) (r : Request) (op : Instr) (k : Nat), s.port = some (.request r) → s.seq = .busy op k →
    step s = .refused .busy) ∧
  (∀ (i : Instr) (s : State), isPrimitive i = true → s.cfg = false → exec i s = .refused .notInitialised) ∧
  (∀ (i : Instr) (s : State), isHostOperation i = true → i ≠ .init → s.seq = .idle → s.cfg = false →
    exec i s = .refused .notInitialised) ∧
  (∀ s : State, s.seq = .idle → s.cfg = true → s.params.allowReinit = false →
    exec .init s = .refused .alreadyInitialised) ∧
  (∀ s : State, s.seq = .idle → s.cfg = false ∨ s.params.allowReinit = true → s.handle.distinct = false →
    exec .init s = .refused .linesNotDistinct)

/-- 41_frame_encoder.md (the empty burst, D14), 43_glyph_text.md (`GLYPH_HIGH_CODES = refuse`, D16; log 16): the refusals
that look at operands. A code above 127 that would be read is refused before the digit is looked at. -/
def Obligations.RefusedOperands : Prop :=
  (∀ (startAddr : Nat) (s : State), s.seq = .idle → s.cfg = true →
    exec (.writeBurst startAddr []) s = .refused .emptyBurst) ∧
  (∀ (digit ch : Nat) (s : State), s.seq = .idle → s.cfg = true → s.params.glyphHighCodes = .refuse → 127 < ch →
    exec (.putChar digit ch) s = .refused .codeAbove127) ∧
  (∀ (text : List Nat) (k ch : Nat) (s : State), s.seq = .idle → s.cfg = true → s.params.glyphHighCodes = .refuse →
    k < 10 → text[k]? = some ch → 127 < ch → exec (.putString text) s = .refused .codeAbove127)

/-- 30_encoding.md (reserved operations, the spec's decision D3): RESERVED_OP is refused in every state, as a reserved op
when the sequencer is idle and as busy otherwise. -/
def Obligations.ReservedOpIsRefused : Prop :=
  ∀ (op : Nat) (s : State),
    (s.seq = .idle → exec (.reservedOp op) s = .refused .reservedOp) ∧
    (s.seq ≠ .idle → exec (.reservedOp op) s = .refused .busy)

/-- 10_state.md R28: no operation reads `status`; it does not influence the next operation. Whatever it was, a host operation
ends the same, and any other instruction only carries it along. -/
def Obligations.StatusIsNeverRead : Prop :=
  ∀ (i : Instr) (s : State) (before : Option Status),
    (isHostOperation i = true → exec i { s with status := before } = exec i s) ∧
    (isHostOperation i = false → ∀ t, exec i s = .next t →
      t.status = s.status ∧ exec i { s with status := before } = .next { t with status := before })

/-- 60_exceptions.md R226: no host operation, primitive or frame ends in a fault, and a host operation that has a next state
is over: `seq` is `Idle`, one status. -/
def Obligations.OperationsRunToCompletion : Prop :=
  (∀ (i : Instr) (s : State) (f : Fault), exec i s ≠ .fault f) ∧
  (∀ (i : Instr) (s t : State), isHostOperation i = true → exec i s = .next t → t.seq = .idle ∧ t.status ≠ none)

/-- The frame of every host operation: the handle, the parameters, the inputs and the model's own fields are unchanged; and
but for INIT so are `cfg`, the line configuration and the counter of free draws (10_state.md R20: who writes what). -/
def Obligations.HostOperationsFrame : Prop :=
  ∀ (i : Instr) (s t : State), isHostOperation i = true → exec i s = .next t →
    t = { s with
      pins := t.pins, trace := t.trace, rx := t.rx, status := t.status, seq := .idle
      cfg := t.cfg, cfgLines := t.cfgLines, draws := t.draws } ∧
    (i ≠ .init → t.cfg = s.cfg ∧ t.cfgLines = s.cfgLines ∧ t.draws = s.draws)

/-- The frame of every wire frame at the receiver: only the receiver changes, and of it not the open transaction
(20_memory.md R65). -/
def Obligations.FramesChangeOnlyTheReceiver : Prop :=
  ∀ (i : Instr) (s : State), isFrame i = true →
    ∃ t, exec i s = .next t ∧ t = { s with rx := t.rx } ∧ t.rx.isOpen = s.rx.isOpen ∧ t.rx.bits = s.rx.bits

/-- The memory frame of every instruction: where the receiver does not fault, each cell outside the stored addresses,
computed by the meaning's own functions, reads as before (20_memory.md R66). In every state for a wire frame at the
receiver and for EMIT_BIT, EMIT_WORD, CS_ASSERT and CS_RELEASE, of which only CS_RELEASE may store: what the open
transaction it closes carries. The first three leave the RAM as it was even where the receiver faults. From idle lines for
a host operation and for WRITE_ADDR, which send whole transactions; INIT also from lines not yet driven. -/
def Obligations.OtherCellsAreUnchanged : Prop :=
  (∀ (i : Instr) (s t : State),
    (isHostOperation i = true → s.pins.idle ∨ i = .init ∧ s.pins = Pins.atReset) →
    ((∃ addr value, i = .writeAddr addr value) → s.pins.idle) → exec i s = .next t → t.rx.fault = false →
    ∀ a, a ∉ cellsStored s i → t.rx.ram.read a = s.rx.ram.read a) ∧
  (∀ (i : Instr) (s t : State),
    (∃ level, i = .emitBit level) ∨ (∃ value bitCount, i = .emitWord value bitCount) ∨ i = .csAssert →
    exec i s = .next t → t.rx.ram = s.rx.ram)

/-! ### What the wire shows -/

/-- 30_encoding.md R84: an observer of the lines reads, from one transaction's events, exactly its frame: 11 bits for a
COMMAND, 13 for a single WRITE, `9 + 4N` for a burst of N, with chip-select toggled exactly once: one `(CS, 0)` event,
then as many EMIT_BIT event groups as bits, then one `(CS, 1)` event. -/
def Obligations.BitCountsOnTheWire : Prop :=
  ∀ t : Transaction,
    wireEvents t = [.line .cs false] ++
      (t.frameBits.flatMap fun b => [.line .data b, .line .wr false, .wait, .line .wr true, .wait]) ++ [.line .cs true] ∧
    observedBits (wireEvents t) = [t.frameBits] ∧
    (wireEvents t).count (.line .cs false) = 1 ∧ (wireEvents t).count (.line .cs true) = 1 ∧
    (∀ code, t = .cmd code → t.frameBits.length = 11) ∧
    (∀ addr d, t = .write addr [d] → t.frameBits.length = 13) ∧
    (∀ addr data, t = .write addr data → t.frameBits.length = 9 + 4 * data.length)

/-- 20_memory.md R59, R70, 40_bit_transport.md R115: in every state, what a host operation that completes with OK adds to the
trace is a sequence of whole bracketed transactions, preceded for INIT by the three idle-level events; an observer
reads their frames and nothing else. -/
def Obligations.TransactionsAreBracketed : Prop :=
  ∀ (i : Instr) (s t : State), isHostOperation i = true → exec i s = .next t → t.status = some .ok →
    ∃ ts : List Transaction, ts ≠ [] ∧
      t.trace = s.trace ++ (if i = .init then idleEvents else []) ++ ts.flatMap wireEvents ∧
      observedBits (ts.flatMap wireEvents) = ts.map Transaction.frameBits

/-- 70_reset_and_hazards.md R254 (the placement of the waits is the spec's decision D5, D7): if every `Wait` takes at least
`T_MIN`, the events of any sequence of transactions, from any start, meet the timing obligations, whatever the other
times. -/
def Obligations.WaitsMeetTheTiming : Prop :=
  ∀ (tMin start : Nat) (ts : List Transaction) (timed : List (TraceElem × Nat)),
    timed.map Prod.fst = ts.flatMap wireEvents →
    (∀ e ∈ timed, e.1 = .wait → tMin ≤ e.2) →
    MeetsTiming tMin (schedule start timed)

/-- 70_reset_and_hazards.md (the table of lower bounds, derived there): line events, waits and minimum duration of one
transaction, and of what each host operation adds to the trace: with OK the row the table gives it, with a failure status
nothing. -/
def Obligations.EventAndWaitCounts : Prop :=
  (∀ (p : Params) (t : Transaction),
    Occupies p (wireEvents t) (3 * t.frameBits.length + 2) (2 * t.frameBits.length)) ∧
  (∀ (i : Instr) (s t : State), isHostOperation i = true → exec i s = .next t →
    ∃ es, t.trace = s.trace ++ es ∧
      (t.status ≠ some .ok → Occupies s.params es 0 0) ∧
      (t.status = some .ok →
        (∀ code, i = .sendCommand code → Occupies s.params es 35 22) ∧
        (∀ d n v, i = .writeNibble d n v → Occupies s.params es 41 26) ∧
        (∀ a ns, i = .writeBurst a ns →
          Occupies s.params es (3 * (9 + 4 * ns.length) + 2) (18 + 8 * ns.length)) ∧
        (s.params.bulkNibbles = 40 → i = .clear ∨ (∃ on, i = .setAll on) → Occupies s.params es 509 338) ∧
        (∀ d ch, i = .putChar d ch → Occupies s.params es 164 104) ∧
        (∀ text, i = .putString text → Occupies s.params es 1640 1040) ∧
        (s.params.bulkNibbles = 40 → i = .init → Occupies s.params es 722 470)))
end

