-- ==== Sys2Proof/Laws/Bits.lean ====
section
/-! SUPPORT. Bit lists and their values: `msb_first` and its reading are inverse (00_scope.md R11). -/

namespace Sys2Proof

@[simp] theorem msbFirst_length (v n : Nat) : (msbFirst v n).length = n := by simp [msbFirst]

@[simp] theorem msbFirst_zero (v : Nat) : msbFirst v 0 = [] := rfl

theorem msbFirst_succ (v n : Nat) : msbFirst v (n + 1) = v.testBit n :: msbFirst v n := by
  simp [msbFirst, List.range_succ]

@[simp] theorem valueMsbFirst_nil : valueMsbFirst [] = 0 := rfl

theorem valueMsbFirst_cons (b : Bool) (bits : List Bool) :
    valueMsbFirst (b :: bits) = b.toNat * 2 ^ bits.length + valueMsbFirst bits := by
  have fold_from (bs : List Bool) (acc : Nat) :
      bs.foldl (fun a c => 2 * a + c.toNat) acc = acc * 2 ^ bs.length + bs.foldl (fun a c => 2 * a + c.toNat) 0 := by
    induction bs generalizing acc with
    | nil => simp
    | cons c cs ih =>
      rw [List.foldl_cons, List.foldl_cons, ih (2 * acc + c.toNat), ih (2 * 0 + c.toNat), List.length_cons, pow_succ]
      ring
  simpa [valueMsbFirst] using fold_from bits b.toNat

theorem valueMsbFirst_lt (bits : List Bool) : valueMsbFirst bits < 2 ^ bits.length := by
  induction bits with
  | nil => simp
  | cons b bs ih =>
    rw [valueMsbFirst_cons, List.length_cons, pow_succ]
    cases b <;> simp <;> omega

theorem valueMsbFirst_msbFirst (v n : Nat) : valueMsbFirst (msbFirst v n) = v % 2 ^ n := by
  induction n with
  | zero => simp [Nat.mod_one]
  | succ n ih =>
    have hbit : (v.testBit n).toNat = v / 2 ^ n % 2 := by
      rw [Nat.testBit_eq_decide_div_mod_eq]
      rcases Nat.mod_two_eq_zero_or_one (v / 2 ^ n) with h | h <;> simp [h]
    rw [msbFirst_succ, valueMsbFirst_cons, ih, msbFirst_length, hbit, pow_succ, Nat.mod_mul, Nat.add_comm, Nat.mul_comm]

/-- A digit in front of a value read MSB first is the value's next bit. -/
theorem testBit_valueMsbFirst_cons (b : Bool) (bits : List Bool) :
    (valueMsbFirst (b :: bits)).testBit bits.length = b := by
  rw [valueMsbFirst_cons, Nat.mul_comm, Nat.testBit_two_pow_mul_add _ (valueMsbFirst_lt bits)]
  cases b <;> simp

/-- Only the low bits of a value reach the list. -/
theorem msbFirst_mod (v n : Nat) : msbFirst (v % 2 ^ n) n = msbFirst v n := by
  simp only [msbFirst]
  refine List.map_congr_left fun i hi => ?_
  have : i < n := by simpa using hi
  simp [Nat.testBit_mod_two_pow, this]

/-- Only the bits below `n` of a value matter for its `n`-bit list. -/
theorem msbFirst_add_mul (q v n : Nat) : msbFirst (q * 2 ^ n + v) n = msbFirst v n := by
  rw [← msbFirst_mod (q * 2 ^ n + v), Nat.mul_comm, Nat.mul_add_mod, msbFirst_mod]

theorem msbFirst_valueMsbFirst (bits : List Bool) : msbFirst (valueMsbFirst bits) bits.length = bits := by
  induction bits with
  | nil => rfl
  | cons b bs ih =>
    rw [List.length_cons, msbFirst_succ, testBit_valueMsbFirst_cons, valueMsbFirst_cons, msbFirst_add_mul, ih]

/-- Two fields side by side are one wider field. -/
theorem msbFirst_append (a b m n : Nat) (hb : b < 2 ^ n) :
    msbFirst (a * 2 ^ n + b) (m + n) = msbFirst a m ++ msbFirst b n := by
  induction m with
  | zero => rw [Nat.zero_add, msbFirst_add_mul, msbFirst_zero, List.nil_append]
  | succ m ih =>
    rw [Nat.add_right_comm, msbFirst_succ, ih, msbFirst_succ, Nat.mul_comm, Nat.testBit_two_pow_mul_add _ hb]
    simp

@[simp] theorem valueMsbFirst_msbFirst_toNat {w : Nat} (v : BitVec w) : valueMsbFirst (msbFirst v.toNat w) = v.toNat := by
  rw [valueMsbFirst_msbFirst, Nat.mod_eq_of_lt v.isLt]

/-- The field of a bit list that starts after its first part. -/
theorem bitField_append (front field back : List Bool) :
    bitField (front ++ field ++ back) front.length field.length = valueMsbFirst field := by
  simp [bitField]

@[simp] theorem frameBits_cmd_length (code : CommandCode) : (Transaction.cmd code).frameBits.length = 11 := by
  simp [Transaction.frameBits, tagCommand]

@[simp] theorem frameBits_write_length (addr : Address) (data : List Nibble) :
    (Transaction.write addr data).frameBits.length = 9 + 4 * data.length := by
  simp [Transaction.frameBits, tagWrite, List.length_flatMap]
  omega

end Sys2Proof
end

