-- ==== Sys2Proof/Laws/Memory.lean ====
section
/-! SUPPORT. The display RAM: a read after a write, the canonical form, and what a burst stores (20_memory.md R66, R68). -/

namespace Sys2Proof.Machine

@[simp] theorem Memory.read_nil (a : Nat) : Memory.read [] a = none := rfl

theorem Memory.read_write_same (m : Memory) (a : Nat) (v : Nibble) : (Memory.write m a v).read a = some v := by
  induction m with
  | nil => simp [Memory.write, Memory.read]
  | cons c m ih =>
    obtain ⟨b, w⟩ := c
    simp only [Memory.write]
    split
    · simp [Memory.read]
    · split
      · simp [Memory.read]
      · rename_i _ hne
        simp [Memory.read, Ne.symm hne, ih]

theorem Memory.read_write_other (m : Memory) (a b : Nat) (v : Nibble) (h : b ≠ a) :
    (Memory.write m a v).read b = m.read b := by
  induction m with
  | nil => simp [Memory.write, Memory.read, Ne.symm h]
  | cons c m ih =>
    obtain ⟨x, w⟩ := c
    simp only [Memory.write]
    split
    · simp [Memory.read, Ne.symm h]
    · split
      · rename_i _ hx
        subst hx
        simp [Memory.read, Ne.symm h]
      · simp [Memory.read, ih]

theorem Memory.read_write (m : Memory) (a b : Nat) (v : Nibble) :
    (Memory.write m a v).read b = if b = a then some v else m.read b := by
  split
  · subst_vars; exact Memory.read_write_same m _ v
  · rename_i h; exact Memory.read_write_other m a b v h

theorem Memory.mem_write {m : Memory} {a : Nat} {v : Nibble} {c : Cell} (h : c ∈ Memory.write m a v) :
    c = (a, v) ∨ c ∈ m := by
  induction m with
  | nil => simpa [Memory.write] using h
  | cons d m ih =>
    obtain ⟨b, w⟩ := d
    simp only [Memory.write] at h
    split at h
    · simpa using h
    · split at h
      · rcases List.mem_cons.mp h with h | h
        · exact .inl h
        · exact .inr (List.mem_cons_of_mem _ h)
      · rcases List.mem_cons.mp h with h | h
        · exact .inr (by simp [h])
        · exact (ih h).imp_right (List.mem_cons_of_mem _)

@[simp] theorem Memory.wf_nil : Memory.wf [] := by simp [Memory.wf]

/-- A write keeps the canonical form. -/
theorem Memory.wf_write {m : Memory} {a : Nat} (v : Nibble) (h : m.wf) (ha : a < Config.ramCells) :
    (Memory.write m a v).wf := by
  refine ⟨?_, fun c hc => ?_⟩
  · obtain ⟨hsorted, -⟩ := h
    induction m with
    | nil => simp [Memory.write]
    | cons d m ih =>
      obtain ⟨b, w⟩ := d
      rw [List.pairwise_cons] at hsorted
      obtain ⟨hfirst, hrest⟩ := hsorted
      simp only [Memory.write]
      split
      · rename_i hlt
        refine List.pairwise_cons.mpr ⟨fun c hc => ?_, List.pairwise_cons.mpr ⟨hfirst, hrest⟩⟩
        rcases List.mem_cons.mp hc with hc | hc
        · subst hc; exact hlt
        · exact Nat.lt_trans hlt (hfirst c hc)
      · split
        · rename_i _ heq
          subst heq
          exact List.pairwise_cons.mpr ⟨hfirst, hrest⟩
        · refine List.pairwise_cons.mpr ⟨fun c hc => ?_, ih hrest⟩
          rcases Memory.mem_write hc with hc | hc
          · subst hc; simp only; omega
          · exact hfirst c hc
  · rcases Memory.mem_write hc with hc | hc
    · subst hc; exact ha
    · exact h.2 c hc

/-- A burst within the 64 cells stores; one that passes address 63 does not (20_memory.md R66, R68). -/
theorem Memory.storeBurst_isSome (m : Memory) (a : Nat) (data : List Nibble) :
    (Memory.storeBurst m a data).isSome = decide (data = [] ∨ a + data.length ≤ Config.ramCells) := by
  induction data generalizing m a with
  | nil => simp [Memory.storeBurst]
  | cons d data ih =>
    simp only [Memory.storeBurst]
    split
    · rename_i h
      rw [ih]
      rcases data with - | ⟨e, data⟩
      · simp; omega
      · simp; omega
    · simp; omega

/-- Everything a burst's stores do: nibble i lands at `a + i`, every other cell keeps its content. -/
theorem Memory.read_storeBurst {m m' : Memory} {a : Nat} {data : List Nibble}
    (h : Memory.storeBurst m a data = some m') (b : Nat) :
    m'.read b = if a ≤ b ∧ b < a + data.length then data[b - a]? else m.read b := by
  induction data generalizing m a with
  | nil =>
    simp only [Memory.storeBurst, Option.some.injEq] at h
    subst h
    simp
  | cons d data ih =>
    simp only [Memory.storeBurst] at h
    split at h
    · rw [ih h, Memory.read_write, List.length_cons]
      by_cases hb : b = a
      · subst hb
        rw [if_neg (by omega), if_pos rfl, if_pos (by omega)]
        simp
      · by_cases hr : a + 1 ≤ b ∧ b < a + 1 + data.length
        · rw [if_pos hr, if_pos (by omega)]
          obtain ⟨k, rfl⟩ : ∃ k, b = a + 1 + k := ⟨b - (a + 1), by omega⟩
          rw [show a + 1 + k - (a + 1) = k by omega, show a + 1 + k - a = k + 1 by omega, List.getElem?_cons_succ]
        · rw [if_neg hr, if_neg hb, if_neg (by omega)]
    · simp at h

theorem Memory.wf_storeBurst {m m' : Memory} {a : Nat} {data : List Nibble}
    (h : Memory.storeBurst m a data = some m') (hm : m.wf) : m'.wf := by
  induction data generalizing m a with
  | nil =>
    simp only [Memory.storeBurst, Option.some.injEq] at h
    exact h ▸ hm
  | cons d data ih =>
    simp only [Memory.storeBurst] at h
    split at h
    · rename_i ha
      exact ih h (Memory.wf_write d hm ha)
    · simp at h

/-- Canonical memories with equal contents are equal lists. -/
theorem Memory.eq_of_read {m n : Memory} (hm : m.wf) (hn : n.wf) (h : ∀ a, m.read a = n.read a) : m = n := by
  have read_below {a : Nat} {l : Memory} (hl : ∀ c ∈ l, a < c.1) : l.read a = none := by
    induction l with
    | nil => rfl
    | cons c l ih =>
      have hc := hl c (by simp)
      simp only [Memory.read]
      rw [if_neg (by omega)]
      exact ih fun d hd => hl d (by simp [hd])
  have pairwise_eq : ∀ {m n : Memory}, m.Pairwise (fun c d => c.1 < d.1) → n.Pairwise (fun c d => c.1 < d.1) →
      (∀ a, m.read a = n.read a) → m = n := by
    intro m
    induction m with
    | nil =>
      intro n _ _ h
      rcases n with - | ⟨⟨b, w⟩, n⟩
      · rfl
      · simpa [Memory.read] using h b
    | cons c m ih =>
      obtain ⟨a, v⟩ := c
      intro n hm hn h
      rcases n with - | ⟨⟨b, w⟩, n⟩
      · simpa [Memory.read] using h a
      · rw [List.pairwise_cons] at hm hn
        have hab : a = b := by
          rcases Nat.lt_trichotomy a b with hlt | heq | hgt
          · have := h a
            simp only [Memory.read, if_true] at this
            rw [if_neg (by omega), read_below fun c hc => Nat.lt_trans hlt (hn.1 c hc)] at this
            simp at this
          · exact heq
          · have := h b
            simp only [Memory.read, if_true] at this
            rw [if_neg (by omega), read_below fun c hc => Nat.lt_trans hgt (hm.1 c hc)] at this
            simp at this
        subst hab
        have hvw : v = w := by simpa [Memory.read] using h a
        subst hvw
        congr 1
        refine ih hm.2 hn.2 fun x => ?_
        by_cases hx : a = x
        · subst hx
          rw [read_below fun c hc => hm.1 c hc, read_below fun c hc => hn.1 c hc]
        · simpa [Memory.read, hx] using h x
  exact pairwise_eq hm.1 hn.1 h

end Sys2Proof.Machine
end

