-- ==== Sys2Proof/Laws/PerInstr.lean ====
section
/-! SUPPORT. A family of facts about instructions as syntax, one lemma per constructor: the row an instruction's words
decode to is well formed too, and has the same words (30_encoding.md R83, R86; log 10). -/

namespace Sys2Proof.Laws.CanonicalKeepsWords

/-- The canonical spelling is well formed where the instruction is, and both have one encoding. -/
def Statement (i : Instr) : Prop :=
  ∀ operandBits : Nat, (i.wellFormed operandBits = true → i.canonical.wellFormed operandBits = true) ∧
    encode operandBits i.canonical = encode operandBits i

theorem command (code : CommandCode) : Statement (.command code) := by
  have at_code : ∀ (n : Nat) (c : CommandCode), (commandInstr c).wellFormed n = true ∧
      encode n (commandInstr c) = some (.frame (Transaction.cmd c).frameBits) := by
    intro n c
    unfold commandInstr
    repeat (first | (split; (subst_vars; exact ⟨rfl, rfl⟩)) | exact ⟨rfl, rfl⟩)
  exact fun n => ⟨fun _ => (at_code n code).1, (at_code n code).2⟩

theorem write (addr : Address) (data : Nibble) : Statement (.write addr data) := fun _ => ⟨fun h => h, rfl⟩

theorem writeBurstFrame (addr : Address) (data : List Nibble) : Statement (.writeBurstFrame addr data) := by
  rcases data with - | ⟨d, - | ⟨e, rest⟩⟩ <;> exact fun _ => ⟨fun h => h, rfl⟩

theorem reservedTag (bits : List Bool) : Statement (.reservedTag bits) := fun _ => ⟨fun h => h, rfl⟩

theorem cmdSysDis : Statement .cmdSysDis := fun _ => ⟨fun h => h, rfl⟩

theorem cmdSysEn : Statement .cmdSysEn := fun _ => ⟨fun h => h, rfl⟩

theorem cmdLcdOff : Statement .cmdLcdOff := fun _ => ⟨fun h => h, rfl⟩

theorem cmdLcdOn : Statement .cmdLcdOn := fun _ => ⟨fun h => h, rfl⟩

theorem cmdToneOff : Statement .cmdToneOff := fun _ => ⟨fun h => h, rfl⟩

theorem cmdRc32k : Statement .cmdRc32k := fun _ => ⟨fun h => h, rfl⟩

theorem cmdExt32k : Statement .cmdExt32k := fun _ => ⟨fun h => h, rfl⟩

theorem cmdIrqDis : Statement .cmdIrqDis := fun _ => ⟨fun h => h, rfl⟩

theorem cmdTimebase1hz : Statement .cmdTimebase1hz := fun _ => ⟨fun h => h, rfl⟩

theorem init : Statement .init := fun _ => ⟨fun h => h, rfl⟩

theorem sendCommand (code : Nat) : Statement (.sendCommand code) := fun _ => ⟨fun h => h, rfl⟩

theorem writeNibble (digit nibbleIndex value : Nat) : Statement (.writeNibble digit nibbleIndex value) := fun _ => ⟨fun h => h, rfl⟩

theorem writeBurst (startAddr : Nat) (nibbles : List Nat) : Statement (.writeBurst startAddr nibbles) := fun _ => ⟨fun h => h, rfl⟩

theorem setAll (on : Nat) : Statement (.setAll on) := fun _ => ⟨fun h => h, rfl⟩

theorem clear : Statement .clear := fun _ => ⟨fun h => h, rfl⟩

theorem putChar (digit ch : Nat) : Statement (.putChar digit ch) := fun _ => ⟨fun h => h, rfl⟩

theorem putString (text : List Nat) : Statement (.putString text) := fun _ => ⟨fun h => h, rfl⟩

theorem reservedOp (op : Nat) : Statement (.reservedOp op) := fun _ => ⟨fun h => h, rfl⟩

theorem emitBit (level : Bool) : Statement (.emitBit level) := fun _ => ⟨fun h => h, rfl⟩

theorem emitWord (value bitCount : Nat) : Statement (.emitWord value bitCount) := fun _ => ⟨fun h => h, rfl⟩

theorem csAssert : Statement .csAssert := fun _ => ⟨fun h => h, rfl⟩

theorem csRelease : Statement .csRelease := fun _ => ⟨fun h => h, rfl⟩

theorem writeAddr (addr value : Nat) : Statement (.writeAddr addr value) := fun _ => ⟨fun h => h, rfl⟩

end Sys2Proof.Laws.CanonicalKeepsWords
end

