-- ==== Sys2Proof/Laws/Receiver.lean ====
section
/-! SUPPORT. The receiver: what each of its actions changes (20_memory.md R63 to R69). -/

namespace Sys2Proof.Machine

/-! ### Commands and writes -/

@[simp] theorem Receiver.command_ram (code : CommandCode) (r : Receiver) : (r.command code).ram = r.ram := rfl
@[simp] theorem Receiver.command_bits (code : CommandCode) (r : Receiver) : (r.command code).bits = r.bits := rfl
@[simp] theorem Receiver.command_isOpen (code : CommandCode) (r : Receiver) : (r.command code).isOpen = r.isOpen := rfl
@[simp] theorem Receiver.command_fault (code : CommandCode) (r : Receiver) : (r.command code).fault = r.fault := rfl
@[simp] theorem Receiver.command_log (code : CommandCode) (r : Receiver) :
    (r.command code).log = r.log ++ [.cmd code] := rfl

@[simp] theorem Receiver.forget_ram (r : Receiver) : r.forget.ram = [] := rfl
@[simp] theorem Receiver.forget_bits (r : Receiver) : r.forget.bits = r.bits := rfl
@[simp] theorem Receiver.forget_isOpen (r : Receiver) : r.forget.isOpen = r.isOpen := rfl
@[simp] theorem Receiver.forget_fault (r : Receiver) : r.forget.fault = true := rfl
@[simp] theorem Receiver.forget_log (r : Receiver) : r.forget.log = r.log := rfl

/-- Everything a received WRITE does: it stores within the 64 cells, or it passes address 63. -/
theorem Receiver.writeData_cases (addr : Address) (data : List Nibble) (r : Receiver) :
    (∃ ram, Memory.storeBurst r.ram addr.toNat data = some ram ∧
      r.writeData addr data = { r with ram := ram, log := r.log ++ [.write addr data] }) ∨
    (Memory.storeBurst r.ram addr.toNat data = none ∧
      r.writeData addr data = { r with ram := [], fault := true, log := r.log ++ [.write addr data] }) := by
  unfold Receiver.writeData Receiver.store
  cases h : Memory.storeBurst r.ram addr.toNat data with
  | some ram => exact .inl ⟨ram, rfl, rfl⟩
  | none => exact .inr ⟨rfl, rfl⟩

@[simp] theorem Receiver.writeData_bits (addr : Address) (data : List Nibble) (r : Receiver) :
    (r.writeData addr data).bits = r.bits := by
  rcases r.writeData_cases addr data with ⟨_, -, h⟩ | ⟨-, h⟩ <;> rw [h]

@[simp] theorem Receiver.writeData_isOpen (addr : Address) (data : List Nibble) (r : Receiver) :
    (r.writeData addr data).isOpen = r.isOpen := by
  rcases r.writeData_cases addr data with ⟨_, -, h⟩ | ⟨-, h⟩ <;> rw [h]

@[simp] theorem Receiver.writeData_log (addr : Address) (data : List Nibble) (r : Receiver) :
    (r.writeData addr data).log = r.log ++ [.write addr data] := by
  rcases r.writeData_cases addr data with ⟨_, -, h⟩ | ⟨-, h⟩ <;> rw [h]

/-- A WRITE within the 64 cells leaves `rx_fault`; one past address 63 sets it. -/
theorem Receiver.writeData_fault (addr : Address) (data : List Nibble) (r : Receiver) :
    (r.writeData addr data).fault =
      (r.fault || !decide (data = [] ∨ addr.toNat + data.length ≤ Config.ramCells)) := by
  have hsome := Memory.storeBurst_isSome r.ram addr.toNat data
  rcases r.writeData_cases addr data with ⟨ram, hr, h⟩ | ⟨hr, h⟩ <;> rw [h] <;> rw [hr] at hsome <;> simp [← hsome]

/-- The cells after a WRITE within the 64 cells. -/
theorem Receiver.read_writeData {addr : Address} {data : List Nibble} {r : Receiver}
    (h : addr.toNat + data.length ≤ Config.ramCells) (a : Nat) :
    (r.writeData addr data).ram.read a =
      if addr.toNat ≤ a ∧ a < addr.toNat + data.length then data[a - addr.toNat]? else r.ram.read a := by
  have hsome := Memory.storeBurst_isSome r.ram addr.toNat data
  rcases r.writeData_cases addr data with ⟨ram, hr, hw⟩ | ⟨hr, hw⟩
  · rw [hw]; exact Memory.read_storeBurst hr a
  · rw [hr] at hsome; simp [h] at hsome

/-- The cells after a WRITE past address 63: all `unknown`. -/
theorem Receiver.writeData_past {addr : Address} {data : List Nibble} {r : Receiver}
    (h : Config.ramCells < addr.toNat + data.length) : (r.writeData addr data).ram = [] := by
  have hsome := Memory.storeBurst_isSome r.ram addr.toNat data
  rcases r.writeData_cases addr data with ⟨ram, hr, hw⟩ | ⟨hr, hw⟩
  · rw [hr] at hsome
    have hlt := addr.isLt
    have : data ≠ [] := by rintro rfl; simp only [Config.ramCells, List.length_nil] at h; omega
    simp [this] at hsome; omega
  · rw [hw]

/-! ### A decoded transaction -/

@[simp] theorem Receiver.apply_bits (t : Transaction) (r : Receiver) : (r.apply t).bits = r.bits := by
  cases t <;> simp [Receiver.apply]

@[simp] theorem Receiver.apply_isOpen (t : Transaction) (r : Receiver) : (r.apply t).isOpen = r.isOpen := by
  cases t <;> simp [Receiver.apply]

@[simp] theorem Receiver.apply_log (t : Transaction) (r : Receiver) : (r.apply t).log = r.log ++ [t] := by
  cases t <;> simp [Receiver.apply]

theorem Receiver.apply_fault_of (t : Transaction) {r : Receiver} (h : r.fault = true) : (r.apply t).fault = true := by
  cases t <;> simp [Receiver.apply, Receiver.writeData_fault, h]

theorem Receiver.apply_wf (t : Transaction) {r : Receiver} (h : r.ram.wf) : (r.apply t).ram.wf := by
  cases t with
  | cmd code => exact h
  | write addr data =>
    rcases r.writeData_cases addr data with ⟨ram, hr, hw⟩ | ⟨-, hw⟩
    · simp only [Receiver.apply, hw]; exact Memory.wf_storeBurst hr h
    · simp only [Receiver.apply, hw]; exact Memory.wf_nil

@[simp] theorem Receiver.applyAll_bits (ts : List Transaction) (r : Receiver) :
    (ts.foldl (fun r t => r.apply t) r).bits = r.bits := by
  induction ts generalizing r with
  | nil => rfl
  | cons t ts ih => simp [ih]

@[simp] theorem Receiver.applyAll_isOpen (ts : List Transaction) (r : Receiver) :
    (ts.foldl (fun r t => r.apply t) r).isOpen = r.isOpen := by
  induction ts generalizing r with
  | nil => rfl
  | cons t ts ih => simp [ih]

theorem Receiver.applyAll_log (ts : List Transaction) (r : Receiver) :
    (ts.foldl (fun r t => r.apply t) r).log = r.log ++ ts := by
  induction ts generalizing r with
  | nil => simp
  | cons t ts ih => simp [ih]

/-! ### A closed bit list -/

@[simp] theorem Receiver.receive_bits (bits : List Bool) (r : Receiver) : (r.receive bits).bits = r.bits := by
  unfold Receiver.receive; split <;> simp

@[simp] theorem Receiver.receive_isOpen (bits : List Bool) (r : Receiver) : (r.receive bits).isOpen = r.isOpen := by
  unfold Receiver.receive; split <;> simp

theorem Receiver.receive_fault_of (bits : List Bool) {r : Receiver} (h : r.fault = true) :
    (r.receive bits).fault = true := by
  unfold Receiver.receive; split
  · exact Receiver.apply_fault_of _ h
  · rfl

theorem Receiver.receive_wf (bits : List Bool) {r : Receiver} (h : r.ram.wf) : (r.receive bits).ram.wf := by
  unfold Receiver.receive; split
  · exact Receiver.apply_wf _ h
  · exact Memory.wf_nil

/-- Decoding does not look at the open transaction's own fields. -/
theorem Receiver.apply_withOpen (t : Transaction) (r : Receiver) (o : Bool) (bits : List Bool) :
    Receiver.apply t { r with isOpen := o, bits := bits } = { r.apply t with isOpen := o, bits := bits } := by
  cases t with
  | cmd code => rfl
  | write addr data =>
    simp only [Receiver.apply, Receiver.writeData, Receiver.store]
    cases Memory.storeBurst r.ram addr.toNat data <;> rfl

/-- Decoding does not look at the open transaction's own fields. -/
theorem Receiver.receive_withOpen (closed : List Bool) (r : Receiver) (o : Bool) (bits : List Bool) :
    Receiver.receive closed { r with isOpen := o, bits := bits } =
      { r.receive closed with isOpen := o, bits := bits } := by
  unfold Receiver.receive; split
  · exact Receiver.apply_withOpen _ r o bits
  · rfl

/-! ### The reaction to a line event -/

theorem Receiver.sample_fault (d : Level) (r : Receiver) : (r.sample d).fault = r.fault := by cases d <;> rfl
theorem Receiver.sample_ram (d : Level) (r : Receiver) : (r.sample d).ram = r.ram := by cases d <;> rfl

theorem Receiver.bracketEdge_ram (l : Level) (r : Receiver) : (r.bracketEdge l).ram = r.ram := by
  unfold Receiver.bracketEdge; split <;> rfl

theorem Receiver.bracketEdge_fault_of (l : Level) {r : Receiver} (h : r.fault = true) :
    (r.bracketEdge l).fault = true := by
  unfold Receiver.bracketEdge; split
  · rfl
  · exact h

/-- "Once `rx_fault` is true it stays true" at a line event (20_memory.md R69). -/
theorem Receiver.react_fault_of (p : Pins) (l : Line) (v : Bool) {r : Receiver} (h : r.fault = true) :
    (r.react p l v).fault = true := by
  unfold Receiver.react
  split
  · split
    · rw [Receiver.sample_fault]; exact h
    · exact h
  · exact h
  · exact h
  · split
    · exact Receiver.bracketEdge_fault_of _ h
    · exact Receiver.bracketEdge_fault_of _ h
  · split
    · split
      · exact Receiver.receive_fault_of _ (Receiver.bracketEdge_fault_of _ h)
      · exact Receiver.bracketEdge_fault_of _ h
    · exact h

/-- A line event keeps the canonical form of the RAM. -/
theorem Receiver.react_wf (p : Pins) (l : Line) (v : Bool) {r : Receiver} (h : r.ram.wf) :
    (r.react p l v).ram.wf := by
  have hedge : (r.bracketEdge p.wr).ram.wf := by rw [Receiver.bracketEdge_ram]; exact h
  unfold Receiver.react
  split
  · split
    · rw [Receiver.sample_ram]; exact h
    · exact h
  · exact h
  · exact h
  · split
    · exact hedge
    · exact hedge
  · split
    · split
      · exact Receiver.receive_wf _ hedge
      · exact hedge
    · exact h

end Sys2Proof.Machine
end

