-- ==== Sys2Proof/Laws/State.lean ====
section
/-! SUPPORT. One lemma for each field of each update of State, so that no proof unfolds a record update. -/

namespace Sys2Proof.Machine

/-! ### `complete`: the end of a host operation -/

@[simp] theorem complete_pins (st : Status) (s : State) : (complete st s).pins = s.pins := rfl
@[simp] theorem complete_cfg (st : Status) (s : State) : (complete st s).cfg = s.cfg := rfl
@[simp] theorem complete_cfgLines (st : Status) (s : State) : (complete st s).cfgLines = s.cfgLines := rfl
@[simp] theorem complete_handle (st : Status) (s : State) : (complete st s).handle = s.handle := rfl
@[simp] theorem complete_status (st : Status) (s : State) : (complete st s).status = some st := rfl
@[simp] theorem complete_seq (st : Status) (s : State) : (complete st s).seq = .idle := rfl
@[simp] theorem complete_trace (st : Status) (s : State) : (complete st s).trace = s.trace := rfl
@[simp] theorem complete_rx (st : Status) (s : State) : (complete st s).rx = s.rx := rfl
@[simp] theorem complete_port (st : Status) (s : State) : (complete st s).port = s.port := rfl
@[simp] theorem complete_script (st : Status) (s : State) : (complete st s).script = s.script := rfl
@[simp] theorem complete_cfgOk (st : Status) (s : State) : (complete st s).cfgOk = s.cfgOk := rfl
@[simp] theorem complete_params (st : Status) (s : State) : (complete st s).params = s.params := rfl
@[simp] theorem complete_grain (st : Status) (s : State) : (complete st s).grain = s.grain := rfl
@[simp] theorem complete_draws (st : Status) (s : State) : (complete st s).draws = s.draws := rfl

/-! ### `failWith`: a failure status -/

@[simp] theorem failWith_pins (st : Status) (s : State) : (failWith st s).pins = s.pins := rfl
@[simp] theorem failWith_cfg (st : Status) (s : State) : (failWith st s).cfg = s.cfg := rfl
@[simp] theorem failWith_cfgLines (st : Status) (s : State) : (failWith st s).cfgLines = s.cfgLines := rfl
@[simp] theorem failWith_handle (st : Status) (s : State) : (failWith st s).handle = s.handle := rfl
@[simp] theorem failWith_status (st : Status) (s : State) : (failWith st s).status = some st := rfl
@[simp] theorem failWith_seq (st : Status) (s : State) : (failWith st s).seq = .idle := rfl
@[simp] theorem failWith_trace (st : Status) (s : State) : (failWith st s).trace = s.trace := rfl
@[simp] theorem failWith_rx (st : Status) (s : State) : (failWith st s).rx = s.rx := rfl
@[simp] theorem failWith_port (st : Status) (s : State) : (failWith st s).port = s.port := rfl
@[simp] theorem failWith_script (st : Status) (s : State) : (failWith st s).script = s.script := rfl
@[simp] theorem failWith_cfgOk (st : Status) (s : State) : (failWith st s).cfgOk = s.cfgOk := rfl
@[simp] theorem failWith_params (st : Status) (s : State) : (failWith st s).params = s.params := rfl
@[simp] theorem failWith_grain (st : Status) (s : State) : (failWith st s).grain = s.grain := rfl
@[simp] theorem failWith_draws (st : Status) (s : State) : (failWith st s).draws = s.draws := rfl

/-! ### `configureLines`: INIT's step 1, accepted -/

@[simp] theorem configureLines_pins (s : State) : (configureLines s).pins = s.pins := rfl
@[simp] theorem configureLines_cfg (s : State) : (configureLines s).cfg = true := rfl
@[simp] theorem configureLines_cfgLines (s : State) : (configureLines s).cfgLines = ⟨.configured, .configured, .configured⟩ := rfl
@[simp] theorem configureLines_handle (s : State) : (configureLines s).handle = s.handle := rfl
@[simp] theorem configureLines_status (s : State) : (configureLines s).status = s.status := rfl
@[simp] theorem configureLines_seq (s : State) : (configureLines s).seq = s.seq := rfl
@[simp] theorem configureLines_trace (s : State) : (configureLines s).trace = s.trace := rfl
@[simp] theorem configureLines_rx (s : State) : (configureLines s).rx = s.rx := rfl
@[simp] theorem configureLines_port (s : State) : (configureLines s).port = s.port := rfl
@[simp] theorem configureLines_script (s : State) : (configureLines s).script = s.script := rfl
@[simp] theorem configureLines_cfgOk (s : State) : (configureLines s).cfgOk = s.cfgOk := rfl
@[simp] theorem configureLines_params (s : State) : (configureLines s).params = s.params := rfl
@[simp] theorem configureLines_grain (s : State) : (configureLines s).grain = s.grain := rfl
@[simp] theorem configureLines_draws (s : State) : (configureLines s).draws = s.draws := rfl

/-! ### `rejectLines`: INIT's step 1, rejected -/

@[simp] theorem rejectLines_pins (s : State) : (rejectLines s).pins = s.pins := rfl
@[simp] theorem rejectLines_cfg (s : State) : (rejectLines s).cfg = s.cfg := rfl
@[simp] theorem rejectLines_handle (s : State) : (rejectLines s).handle = s.handle := rfl
@[simp] theorem rejectLines_status (s : State) : (rejectLines s).status = s.status := rfl
@[simp] theorem rejectLines_seq (s : State) : (rejectLines s).seq = s.seq := rfl
@[simp] theorem rejectLines_trace (s : State) : (rejectLines s).trace = s.trace := rfl
@[simp] theorem rejectLines_rx (s : State) : (rejectLines s).rx = s.rx := rfl
@[simp] theorem rejectLines_port (s : State) : (rejectLines s).port = s.port := rfl
@[simp] theorem rejectLines_script (s : State) : (rejectLines s).script = s.script := rfl
@[simp] theorem rejectLines_cfgOk (s : State) : (rejectLines s).cfgOk = s.cfgOk := rfl
@[simp] theorem rejectLines_params (s : State) : (rejectLines s).params = s.params := rfl
@[simp] theorem rejectLines_grain (s : State) : (rejectLines s).grain = s.grain := rfl
@[simp] theorem rejectLines_draws (s : State) : (rejectLines s).draws = s.draws + 1 := rfl

/-! ### `play`: line events -/

@[simp] theorem play_pins (es : List TraceElem) (s : State) : (play es s).pins = (wireRun (s.pins, s.rx) es).1 := rfl
@[simp] theorem play_cfg (es : List TraceElem) (s : State) : (play es s).cfg = s.cfg := rfl
@[simp] theorem play_cfgLines (es : List TraceElem) (s : State) : (play es s).cfgLines = s.cfgLines := rfl
@[simp] theorem play_handle (es : List TraceElem) (s : State) : (play es s).handle = s.handle := rfl
@[simp] theorem play_status (es : List TraceElem) (s : State) : (play es s).status = s.status := rfl
@[simp] theorem play_seq (es : List TraceElem) (s : State) : (play es s).seq = s.seq := rfl
@[simp] theorem play_trace (es : List TraceElem) (s : State) : (play es s).trace = s.trace ++ es := rfl
@[simp] theorem play_rx (es : List TraceElem) (s : State) : (play es s).rx = (wireRun (s.pins, s.rx) es).2 := rfl
@[simp] theorem play_port (es : List TraceElem) (s : State) : (play es s).port = s.port := rfl
@[simp] theorem play_script (es : List TraceElem) (s : State) : (play es s).script = s.script := rfl
@[simp] theorem play_cfgOk (es : List TraceElem) (s : State) : (play es s).cfgOk = s.cfgOk := rfl
@[simp] theorem play_params (es : List TraceElem) (s : State) : (play es s).params = s.params := rfl
@[simp] theorem play_grain (es : List TraceElem) (s : State) : (play es s).grain = s.grain := rfl
@[simp] theorem play_draws (es : List TraceElem) (s : State) : (play es s).draws = s.draws := rfl

/-! ### `afterSending`: transactions -/

@[simp] theorem afterSending_pins (ts : List Transaction) (s : State) : (afterSending ts s).pins = ⟨.high, .high, lastLevel s.pins.data (ts.flatMap Transaction.frameBits)⟩ := rfl
@[simp] theorem afterSending_cfg (ts : List Transaction) (s : State) : (afterSending ts s).cfg = s.cfg := rfl
@[simp] theorem afterSending_cfgLines (ts : List Transaction) (s : State) : (afterSending ts s).cfgLines = s.cfgLines := rfl
@[simp] theorem afterSending_handle (ts : List Transaction) (s : State) : (afterSending ts s).handle = s.handle := rfl
@[simp] theorem afterSending_status (ts : List Transaction) (s : State) : (afterSending ts s).status = s.status := rfl
@[simp] theorem afterSending_seq (ts : List Transaction) (s : State) : (afterSending ts s).seq = s.seq := rfl
@[simp] theorem afterSending_trace (ts : List Transaction) (s : State) : (afterSending ts s).trace = s.trace ++ ts.flatMap wireEvents := rfl
@[simp] theorem afterSending_rx (ts : List Transaction) (s : State) : (afterSending ts s).rx = { ts.foldl (fun r t => r.apply t) s.rx with isOpen := false, bits := [] } := rfl
@[simp] theorem afterSending_port (ts : List Transaction) (s : State) : (afterSending ts s).port = s.port := rfl
@[simp] theorem afterSending_script (ts : List Transaction) (s : State) : (afterSending ts s).script = s.script := rfl
@[simp] theorem afterSending_cfgOk (ts : List Transaction) (s : State) : (afterSending ts s).cfgOk = s.cfgOk := rfl
@[simp] theorem afterSending_params (ts : List Transaction) (s : State) : (afterSending ts s).params = s.params := rfl
@[simp] theorem afterSending_grain (ts : List Transaction) (s : State) : (afterSending ts s).grain = s.grain := rfl
@[simp] theorem afterSending_draws (ts : List Transaction) (s : State) : (afterSending ts s).draws = s.draws := rfl

/-! ### `withFetchWord`: a table word at the port -/

@[simp] theorem withFetchWord_pins (s : State) (nbits w : Nat) : (s.withFetchWord nbits w).pins = s.pins := rfl
@[simp] theorem withFetchWord_cfg (s : State) (nbits w : Nat) : (s.withFetchWord nbits w).cfg = s.cfg := rfl
@[simp] theorem withFetchWord_cfgLines (s : State) (nbits w : Nat) : (s.withFetchWord nbits w).cfgLines = s.cfgLines := rfl
@[simp] theorem withFetchWord_handle (s : State) (nbits w : Nat) : (s.withFetchWord nbits w).handle = s.handle := rfl
@[simp] theorem withFetchWord_status (s : State) (nbits w : Nat) : (s.withFetchWord nbits w).status = s.status := rfl
@[simp] theorem withFetchWord_seq (s : State) (nbits w : Nat) : (s.withFetchWord nbits w).seq = s.seq := rfl
@[simp] theorem withFetchWord_trace (s : State) (nbits w : Nat) : (s.withFetchWord nbits w).trace = s.trace := rfl
@[simp] theorem withFetchWord_rx (s : State) (nbits w : Nat) : (s.withFetchWord nbits w).rx = s.rx := rfl
@[simp] theorem withFetchWord_port (s : State) (nbits w : Nat) : (s.withFetchWord nbits w).port = tableArrival s.params.operandBits nbits w s.cfgOk := rfl
@[simp] theorem withFetchWord_script (s : State) (nbits w : Nat) : (s.withFetchWord nbits w).script = s.script := rfl
@[simp] theorem withFetchWord_cfgOk (s : State) (nbits w : Nat) : (s.withFetchWord nbits w).cfgOk = s.cfgOk := rfl
@[simp] theorem withFetchWord_params (s : State) (nbits w : Nat) : (s.withFetchWord nbits w).params = s.params := rfl
@[simp] theorem withFetchWord_grain (s : State) (nbits w : Nat) : (s.withFetchWord nbits w).grain = s.grain := rfl
@[simp] theorem withFetchWord_draws (s : State) (nbits w : Nat) : (s.withFetchWord nbits w).draws = s.draws := rfl

end Sys2Proof.Machine
end

