-- ==== Sys2Proof/Laws/Wire.lean ====
section
/-! SUPPORT. Playing line events: sequences compose, a bit inside a bracket is sampled, and a whole transaction from idle
lines ends in one decoding of its frame (40_bit_transport.md, 20_memory.md R63, R64). -/

namespace Sys2Proof.Machine

@[simp] theorem wireRun_nil (w : Pins × Receiver) : wireRun w [] = w := rfl

@[simp] theorem wireRun_cons (w : Pins × Receiver) (e : TraceElem) (es : List TraceElem) :
    wireRun w (e :: es) = wireRun (wireStep w e) es := rfl

theorem wireRun_append (w : Pins × Receiver) (es fs : List TraceElem) :
    wireRun w (es ++ fs) = wireRun (wireRun w es) fs := by simp [wireRun]

@[simp] theorem play_nil (s : State) : play [] s = s := by simp [play]

theorem play_append (es fs : List TraceElem) (s : State) : play (es ++ fs) s = play fs (play es s) := by
  simp [play, wireRun_append]

theorem wireRun_fault_of (es : List TraceElem) {w : Pins × Receiver} (h : w.2.fault = true) :
    (wireRun w es).2.fault = true := by
  induction es generalizing w with
  | nil => exact h
  | cons e es ih =>
    refine ih ?_
    cases e with
    | line l v => exact Receiver.react_fault_of _ l v h
    | wait => exact h

theorem wireRun_wf (es : List TraceElem) {w : Pins × Receiver} (h : w.2.ram.wf) : (wireRun w es).2.ram.wf := by
  induction es generalizing w with
  | nil => exact h
  | cons e es ih =>
    refine ih ?_
    cases e with
    | line l v => exact Receiver.react_wf _ l v h
    | wait => exact h

@[simp] theorem Level.ofBool_ne_undriven (b : Bool) : Level.ofBool b ≠ .undriven := by cases b <;> decide

@[simp] theorem Receiver.sample_ofBool (b : Bool) (r : Receiver) :
    r.sample (Level.ofBool b) = { r with bits := r.bits ++ [b] } := by cases b <;> rfl

/-- A bit inside an open bracket: the receiver samples exactly the level (40_bit_transport.md R110). -/
theorem wireRun_bitEvents (d : Level) (r : Receiver) (b : Bool) :
    wireRun (⟨.low, .high, d⟩, r) (bitEvents b) =
      (⟨.low, .high, Level.ofBool b⟩, if r.isOpen = true then { r with bits := r.bits ++ [b] } else r) := by
  have hlow : Level.ofBool false = .low := rfl
  have hhigh : Level.ofBool true = .high := rfl
  simp [bitEvents, wireRun, wireStep, Pins.set, Receiver.react, hlow, hhigh]

@[simp] theorem lastLevel_nil (d : Level) : lastLevel d [] = d := rfl

@[simp] theorem lastLevel_concat (d : Level) (bits : List Bool) (b : Bool) :
    lastLevel d (bits ++ [b]) = Level.ofBool b := by simp [lastLevel]

theorem lastLevel_append (d : Level) (bits more : List Bool) :
    lastLevel d (bits ++ more) = lastLevel (lastLevel d bits) more := by
  induction more using List.reverseRecOn with
  | nil => simp
  | append_singleton more b _ => rw [← List.append_assoc, lastLevel_concat, lastLevel_concat]

/-- Bits inside an open bracket, in order (20_memory.md R63). -/
theorem wireRun_bits (d : Level) (r : Receiver) (bits : List Bool) (h : r.isOpen = true) :
    wireRun (⟨.low, .high, d⟩, r) (bits.flatMap bitEvents) =
      (⟨.low, .high, lastLevel d bits⟩, { r with bits := r.bits ++ bits }) := by
  induction bits using List.reverseRecOn with
  | nil => simp
  | append_singleton bits b ih =>
    rw [List.flatMap_append, wireRun_append, ih]
    simp [wireRun_bitEvents, h]

/-- A whole transaction from idle lines: the receiver decodes its frame once, the lines end idle, DATA on the last bit
(20_memory.md R64, 10_state.md R24). -/
theorem wireRun_wireEvents (d : Level) (r : Receiver) (t : Transaction) :
    wireRun (⟨.high, .high, d⟩, r) (wireEvents t) =
      (⟨.high, .high, lastLevel d t.frameBits⟩, { r.receive t.frameBits with isOpen := false, bits := [] }) := by
  have hopen : wireRun (⟨.high, .high, d⟩, r) assertEvents =
      (⟨.low, .high, d⟩, { r with isOpen := true, bits := [] }) := rfl
  have hclose (p : Level) (q : Receiver) (hq : q.isOpen = true) :
      wireRun (⟨.low, .high, p⟩, q) releaseEvents = (⟨.high, .high, p⟩, q.closed) := by
    have hhigh : Level.ofBool true = .high := rfl
    simp [releaseEvents, wireRun, wireStep, Pins.set, Receiver.react, Receiver.bracketEdge, hq, hhigh]
  rw [wireEvents, wireRun_append, wireRun_append, hopen, wireRun_bits _ _ _ rfl, hclose _ _ rfl, Receiver.closed,
    List.nil_append]
  exact congrArg (fun q => (_, { q with isOpen := false, bits := [] }))
    (Receiver.receive_withOpen t.frameBits r true t.frameBits)

/-- INIT's idle levels, on lines not yet driven or idle: no reaction of the receiver (44_device_lifecycle.md R193). -/
theorem wireRun_idleEvents {p : Pins} (r : Receiver) (h : p = Pins.atReset ∨ p.idle) :
    wireRun (p, r) idleEvents = (⟨.high, .high, .low⟩, r) := by
  have hlow : Level.ofBool false = .low := rfl
  have hhigh : Level.ofBool true = .high := rfl
  rcases h with rfl | ⟨hcs, hwr, -⟩
  · simp [idleEvents, wireRun, wireStep, Pins.set, Receiver.react, Pins.atReset, hlow, hhigh]
  · simp [idleEvents, wireRun, wireStep, Pins.set, Receiver.react, hcs, hwr, hlow, hhigh]

/-! ### The lines and the open transaction do not depend on what the receiver has recorded -/

theorem Receiver.bracketEdge_open (l : Level) (r : Receiver) :
    (r.bracketEdge l).isOpen = r.isOpen ∧ (r.bracketEdge l).bits = r.bits := by
  unfold Receiver.bracketEdge; split <;> exact ⟨rfl, rfl⟩

theorem Receiver.sample_open (d : Level) {q r : Receiver} (ho : q.isOpen = r.isOpen) (hb : q.bits = r.bits) :
    (q.sample d).isOpen = (r.sample d).isOpen ∧ (q.sample d).bits = (r.sample d).bits := by
  cases d <;> simp [Receiver.sample, ho, hb]

theorem Receiver.react_open (p : Pins) (l : Line) (v : Bool) {q r : Receiver} (ho : q.isOpen = r.isOpen)
    (hb : q.bits = r.bits) :
    (q.react p l v).isOpen = (r.react p l v).isOpen ∧ (q.react p l v).bits = (r.react p l v).bits := by
  have hq := q.bracketEdge_open p.wr
  have hr := r.bracketEdge_open p.wr
  unfold Receiver.react
  split
  · rw [ho]; split
    · exact Receiver.sample_open _ ho hb
    · exact ⟨ho, hb⟩
  · exact ⟨ho, hb⟩
  · exact ⟨ho, hb⟩
  · split
    · rw [hq.1, hq.2, hr.1, hr.2]; exact ⟨ho, hb⟩
    · exact ⟨rfl, rfl⟩
  · split
    · rw [ho]; split
      · exact ⟨rfl, rfl⟩
      · rw [hq.1, hq.2, hr.1, hr.2]; exact ⟨ho, hb⟩
    · exact ⟨ho, hb⟩

/-- Trace elements leave equal lines and equal open transactions equal (20_memory.md R63, R64). -/
theorem wireRun_open (es : List TraceElem) {v w : Pins × Receiver} (hp : v.1 = w.1) (ho : v.2.isOpen = w.2.isOpen)
    (hb : v.2.bits = w.2.bits) :
    (wireRun v es).1 = (wireRun w es).1 ∧ (wireRun v es).2.isOpen = (wireRun w es).2.isOpen ∧
      (wireRun v es).2.bits = (wireRun w es).2.bits := by
  induction es generalizing v w with
  | nil => exact ⟨hp, ho, hb⟩
  | cons e es ih =>
    cases e with
    | wait => exact ih hp ho hb
    | line l b =>
      obtain ⟨p, q⟩ := v
      obtain ⟨_, r⟩ := w
      subst hp
      obtain ⟨h1, h2⟩ := Receiver.react_open p l b ho hb
      exact ih (v := (p.set l b, q.react p l b)) (w := (p.set l b, r.react p l b)) rfl h1 h2

end Sys2Proof.Machine
end

