-- ==== Sys2Proof/Laws/Plans.lean ====
section
/-! SUPPORT. The courses of the host operations as transactions (30_encoding.md R97, R98), what a host operation can do,
said once, and that the meanings are their admissions run. -/

namespace Sys2Proof.Machine

/-! ### Expansions are wire forms -/

theorem msbFirst_tagCommand : msbFirst 0b100 3 = tagCommand := by decide
theorem msbFirst_tagWrite : msbFirst 0b101 3 = tagWrite := by decide

theorem sendCommandEvents_eq (code : Nat) : sendCommandEvents code = wireEvents (.cmd (commandField code)) := by
  simp [sendCommandEvents, wireEvents, msbFirst_tagCommand, Transaction.frameBits, wordEvents]

theorem writeAddrEvents_eq (addr value : Nat) :
    writeAddrEvents addr value = wireEvents (.write (addressField addr) [nibbleField value]) := by
  simp [writeAddrEvents, wireEvents, msbFirst_tagWrite, Transaction.frameBits, wordEvents]

theorem writeBurstEvents_eq (startAddr : Nat) (nibbles : List Nat) :
    writeBurstEvents startAddr nibbles =
      wireEvents (.write (addressField startAddr) (nibbles.map nibbleField)) := by
  simp [writeBurstEvents, wireEvents, msbFirst_tagWrite, Transaction.frameBits, wordEvents, List.flatMap_map,
    List.flatMap_assoc]

/-! ### Plans in order -/

@[simp] theorem Plan.run_andThen_run (es fs : List TraceElem) :
    (Plan.run es).andThen (.run fs) = .run (es ++ fs) := rfl

@[simp] theorem Plan.inOrder_nil : Plan.inOrder [] = .run [] := rfl

theorem Plan.inOrder_cons (p : Plan) (ps : List Plan) : Plan.inOrder (p :: ps) = p.andThen (Plan.inOrder ps) := rfl

/-- Plans that all run, run one after another. -/
theorem Plan.inOrder_run {α : Type} (xs : List α) (plan : α → Plan) (events : α → List TraceElem)
    (h : ∀ x ∈ xs, plan x = .run (events x)) : Plan.inOrder (xs.map plan) = .run (xs.flatMap events) := by
  induction xs with
  | nil => rfl
  | cons x xs ih =>
    rw [List.map_cons, Plan.inOrder_cons, h x (by simp), ih fun y hy => h y (by simp [hy])]
    simp

/-- A refused plan among plans that run or are refused refuses the whole. -/
theorem Plan.inOrder_refuse {α : Type} (xs : List α) (plan : α → Plan) (r : Refusal)
    (h : ∀ x ∈ xs, plan x = .refuse r ∨ ∃ es, plan x = .run es) (hr : ∃ x ∈ xs, plan x = .refuse r) :
    Plan.inOrder (xs.map plan) = .refuse r := by
  induction xs with
  | nil => simp at hr
  | cons x xs ih =>
    rw [List.map_cons, Plan.inOrder_cons]
    rcases h x (by simp) with hx | ⟨es, hx⟩
    · rw [hx]; rfl
    · obtain ⟨y, hy, hyr⟩ := hr
      have hmem : y ∈ xs := by
        rcases List.mem_cons.mp hy with rfl | hy
        · rw [hx] at hyr; cases hyr
        · exact hy
      rw [hx, ih (fun z hz => h z (by simp [hz])) ⟨y, hmem, hyr⟩]
      rfl

/-! ### The plan of each operation -/

theorem planSendCommand_eq (code : Nat) : planSendCommand code = .run (wireEvents (.cmd (commandField code))) := by
  rw [planSendCommand, sendCommandEvents_eq]

theorem planWriteBurst_eq {startAddr : Nat} {nibbles : List Nat} (h : nibbles ≠ []) :
    planWriteBurst startAddr nibbles =
      .run (wireEvents (.write (addressField startAddr) (nibbles.map nibbleField))) := by
  rw [planWriteBurst, if_neg h, writeBurstEvents_eq]

theorem digitInBounds_iff (d n : Nat) : digitInBounds d n = true ↔ d < 10 ∧ n < 4 := by
  rw [digitInBounds, Bool.and_eq_true, decide_eq_true_iff, decide_eq_true_iff]
  rfl

theorem planWriteNibble_inBounds {d n : Nat} (hd : d < 10) (hn : n < 4) (v : Nat) :
    planWriteNibble d n v = .run (wireEvents (.write (addressField (digitAddress d n)) [nibbleField v])) := by
  rw [planWriteNibble, if_pos ((digitInBounds_iff d n).mpr ⟨hd, hn⟩), planWriteAddr, writeAddrEvents_eq]

theorem planWriteNibble_outOfBounds {d n : Nat} (h : 10 ≤ d ∨ 4 ≤ n) (v : Nat) :
    planWriteNibble d n v = .raise [] .invalidArgument := by
  have : ¬ digitInBounds d n = true := by rw [digitInBounds_iff]; omega
  rw [planWriteNibble, if_neg this]

theorem planSetAll_eq {p : Params} (h : p.bulkNibbles ≠ 0) (on : Nat) :
    planSetAll p on = .run (wireEvents (bulkTransaction p (if on ≠ 0 then 0xF else 0x0))) := by
  have hne (v : Nat) : List.replicate p.bulkNibbles v ≠ [] := by simpa using h
  rw [planSetAll, planWriteBurst_eq (hne _), List.map_replicate]
  by_cases hon : on = 0 <;> simp [hon, operandOn, bulkTransaction] <;> rfl

theorem planClear_eq {p : Params} (h : p.bulkNibbles ≠ 0) :
    planClear p = .run (wireEvents (bulkTransaction p 0x0)) := by
  have hne : List.replicate p.bulkNibbles 0x0 ≠ [] := by simpa using h
  rw [planClear, planWriteBurst_eq hne, List.map_replicate]
  rfl

theorem planClear_none {p : Params} (h : p.bulkNibbles = 0) : planClear p = .refuse .emptyBurst := by
  simp [planClear, planWriteBurst, h]

theorem planSetAll_none {p : Params} (h : p.bulkNibbles = 0) (on : Nat) : planSetAll p on = .refuse .emptyBurst := by
  simp [planSetAll, planWriteBurst, h]

theorem highCodeRefused_iff (p : Params) (ch : Nat) :
    highCodeRefused p ch = true ↔ p.glyphHighCodes = .refuse ∧ 127 < ch := by
  simp [highCodeRefused]

theorem planPutChar_refused {p : Params} {ch : Nat} (h : highCodeRefused p ch = true) (d : Nat) :
    planPutChar p d ch = .refuse .codeAbove127 := by rw [planPutChar, if_pos h]

theorem planPutChar_eq {p : Params} {d ch : Nat} (h : highCodeRefused p ch = false) (hd : d < 10) :
    planPutChar p d ch = .run ((charTransactions p d ch).flatMap wireEvents) := by
  rw [planPutChar, if_neg (by simp [h]),
    Plan.inOrder_run _ _ (fun i => wireEvents (.write (addressField (digitAddress d i))
      [nibbleField (maskNibble (glyphRead p ch) i)])) fun i hi => planWriteNibble_inBounds hd ?_ _]
  · rfl
  · fin_cases hi <;> omega

theorem planPutChar_badDigit {p : Params} {d ch : Nat} (h : highCodeRefused p ch = false) (hd : 10 ≤ d) :
    planPutChar p d ch = .raise [] .invalidArgument := by
  rw [planPutChar, if_neg (by simp [h]), List.map_cons, Plan.inOrder_cons,
    planWriteNibble_outOfBounds (.inl hd)]
  rfl

theorem planPutString_eq {p : Params} {text : List Nat}
    (h : ∀ k, k < 10 → highCodeRefused p (stringChar text k) = false) :
    planPutString p text = .run ((stringTransactions p text).flatMap wireEvents) := by
  rw [planPutString, Plan.inOrder_run _ _ (fun k => (charTransactions p k (stringChar text k)).flatMap wireEvents)
    fun k hk => ?_]
  · rw [stringTransactions, List.flatMap_assoc]
  · have : k < 10 := by simpa [Config.numDigits] using hk
    exact planPutChar_eq (h k this) this

theorem planPutString_refused {p : Params} {text : List Nat} {k : Nat} (hk : k < 10)
    (h : highCodeRefused p (stringChar text k) = true) : planPutString p text = .refuse .codeAbove127 := by
  refine Plan.inOrder_refuse _ _ _ (fun j hj => ?_) ⟨k, by simpa [Config.numDigits] using hk, planPutChar_refused h k⟩
  have hj : j < 10 := by simpa [Config.numDigits] using hj
  by_cases hc : highCodeRefused p (stringChar text j) = true
  · exact .inl (planPutChar_refused hc j)
  · exact .inr ⟨_, planPutChar_eq (by simpa using hc) hj⟩

theorem planPowerOn_eq : Plan.inOrder (powerOnCommands.map planSendCommand) =
    .run ([(.cmd 0x01 : Transaction), .cmd 0x03, .cmd 0x18, .cmd 0x08, .cmd 0x90, .cmd 0xA0].flatMap wireEvents) := by
  rw [Plan.inOrder_run _ _ (fun c => wireEvents (.cmd (commandField c))) fun c _ => planSendCommand_eq c]
  rfl

theorem planInit_eq {p : Params} (h : p.bulkNibbles ≠ 0) :
    planInit p = .run (idleEvents ++ (initTransactions p).flatMap wireEvents) := by
  rw [planInit, planPowerOn_eq, planClear_eq h, Plan.run_andThen_run, Plan.run_andThen_run]
  simp [initTransactions]

theorem planInit_none {p : Params} (h : p.bulkNibbles = 0) : planInit p = .refuse .emptyBurst := by
  rw [planInit, planPowerOn_eq, planClear_none h]
  rfl

/-! ### The course of a busy sequencer -/

/-- A transaction the driver sends carries at least one nibble if it is a WRITE (41_frame_encoder.md R134, R135). -/
def Sendable : Transaction → Prop
  | .cmd _ => True
  | .write _ data => data ≠ []

/-- The events of every host operation that runs: for INIT the idle levels, then whole transactions, at least one, each
one the receiver knows (20_memory.md R70). -/
theorem course_of_busyPlan {p : Params} {i : Instr} {es : List TraceElem} (h : busyPlan? p i = some (.run es)) :
    ∃ ts : List Transaction, ts ≠ [] ∧ (∀ t ∈ ts, Sendable t) ∧
      es = (if i = .init then idleEvents else []) ++ ts.flatMap wireEvents := by
  have one (t : Transaction) (ht : Sendable t) (hes : es = wireEvents t) (hi : i ≠ .init) :
      ∃ ts : List Transaction, ts ≠ [] ∧ (∀ t ∈ ts, Sendable t) ∧
        es = (if i = .init then idleEvents else []) ++ ts.flatMap wireEvents :=
    ⟨[t], by simp, by simpa using ht, by simp [hes, hi]⟩
  cases i with
  | init =>
    simp only [busyPlan?, Option.some.injEq] at h
    by_cases hb : p.bulkNibbles = 0
    · rw [planInit_none hb] at h; cases h
    · rw [planInit_eq hb, Plan.run.injEq] at h
      refine ⟨initTransactions p, by simp [initTransactions], fun t ht => ?_, by simp [h]⟩
      simp only [initTransactions, List.mem_cons, List.not_mem_nil, or_false] at ht
      rcases ht with rfl | rfl | rfl | rfl | rfl | rfl | rfl <;> simp [Sendable, bulkTransaction, hb]
  | sendCommand code =>
    simp only [busyPlan?, planSendCommand_eq, Option.some.injEq, Plan.run.injEq] at h
    exact one _ (by simp [Sendable]) h.symm (by simp)
  | writeNibble d n v =>
    simp only [busyPlan?, Option.some.injEq] at h
    by_cases hb : d < 10 ∧ n < 4
    · rw [planWriteNibble_inBounds hb.1 hb.2, Plan.run.injEq] at h
      exact one _ (by simp [Sendable]) h.symm (by simp)
    · rw [planWriteNibble_outOfBounds (by omega)] at h; cases h
  | writeBurst a ns =>
    simp only [busyPlan?, Option.some.injEq] at h
    by_cases hb : ns = []
    · rw [planWriteBurst, if_pos hb] at h; cases h
    · rw [planWriteBurst_eq hb, Plan.run.injEq] at h
      exact one _ (by simpa [Sendable] using hb) h.symm (by simp)
  | setAll on =>
    simp only [busyPlan?, Option.some.injEq] at h
    by_cases hb : p.bulkNibbles = 0
    · rw [planSetAll_none hb] at h; cases h
    · rw [planSetAll_eq hb, Plan.run.injEq] at h
      exact one _ (by simp [Sendable, bulkTransaction, hb]) h.symm (by simp)
  | clear =>
    simp only [busyPlan?, Option.some.injEq] at h
    by_cases hb : p.bulkNibbles = 0
    · rw [planClear_none hb] at h; cases h
    · rw [planClear_eq hb, Plan.run.injEq] at h
      exact one _ (by simp [Sendable, bulkTransaction, hb]) h.symm (by simp)
  | putChar d ch =>
    simp only [busyPlan?, Option.some.injEq] at h
    by_cases hr : highCodeRefused p ch = true
    · rw [planPutChar_refused hr] at h; cases h
    · by_cases hd : d < 10
      · rw [planPutChar_eq (by simpa using hr) hd, Plan.run.injEq] at h
        refine ⟨charTransactions p d ch, by simp [charTransactions], fun t ht => ?_, by simp [h]⟩
        simp only [charTransactions, List.mem_map] at ht
        obtain ⟨_, -, rfl⟩ := ht
        simp [Sendable]
      · rw [planPutChar_badDigit (by simpa using hr) (by omega)] at h; cases h
  | putString text =>
    simp only [busyPlan?, Option.some.injEq] at h
    by_cases hr : ∃ k, k < 10 ∧ highCodeRefused p (stringChar text k) = true
    · obtain ⟨k, hk, hr⟩ := hr
      rw [planPutString_refused hk hr] at h; cases h
    · rw [planPutString_eq fun k hk => by simpa using fun hc => hr ⟨k, hk, hc⟩, Plan.run.injEq] at h
      refine ⟨stringTransactions p text, ?_, fun t ht => ?_, by simp [h]⟩
      · rw [stringTransactions, Config.numDigits, Ne, List.flatMap_eq_nil_iff]
        intro hnil
        exact absurd (hnil 0 (by simp)) (by simp [charTransactions])
      · simp only [stringTransactions, charTransactions, List.mem_flatMap, List.mem_map] at ht
        obtain ⟨_, -, _, -, rfl⟩ := ht
        simp [Sendable]
  | _ => simp [busyPlan?] at h

/-! ### Meanings as admissions -/

/-- A host operation's meaning is its admission, run. -/
theorem exec_of_admission {i : Instr} {s : State} {a : Admission} (h : admission? i s = some a) :
    exec i s = runAdmitted a := by
  cases i <;> simp only [admission?, Option.some.injEq, reduceCtorEq] at h <;> subst h <;> rfl

/-- The host operations are the rows with an admission. -/
theorem admission_isSome (i : Instr) (s : State) : (admission? i s).isSome = isHostOperation i := by
  cases i <;> rfl

theorem admitReady_ok {p q : Plan} {s u : State} (h : admitReady p s = .ok (u, q)) :
    u = s ∧ q = p ∧ s.seq = .idle ∧ s.cfg = true := by
  unfold admitReady at h
  split at h
  · cases h
  · split at h
    · cases h
    · rename_i h1 h2
      cases h
      exact ⟨rfl, rfl, by simpa using h1, by simpa using h2⟩

/-- What an admitted host operation starts from: the state itself and the operation's course; for INIT the lines
configured, or the platform's rejection. -/
theorem admission_ok {i : Instr} {s u : State} {p : Plan} (h : admission? i s = some (.ok (u, p))) :
    s.seq = .idle ∧
    ((i ≠ .init ∧ s.cfg = true ∧ u = s ∧ busyPlan? s.params i = some p) ∨
      (i = .init ∧ s.cfgOk = true ∧ u = configureLines s ∧ busyPlan? s.params i = some p) ∨
      (i = .init ∧ s.cfgOk = false ∧ u = rejectLines s ∧ p = .raise [] .configFailure)) := by
  cases i with
  | init =>
    simp only [admission?, Option.some.injEq] at h
    unfold admitInit at h
    split at h
    · cases h
    split at h
    · cases h
    split at h
    · cases h
    rename_i h1 _ _
    refine ⟨by simpa using h1, .inr ?_⟩
    split at h
    · rename_i h4
      cases h
      exact .inr ⟨rfl, h4, rfl, rfl⟩
    · rename_i h4
      cases h
      exact .inl ⟨rfl, by simpa using h4, rfl, rfl⟩
  | sendCommand _ | writeNibble _ _ _ | writeBurst _ _ | setAll _ | clear | putChar _ _ | putString _ =>
    simp only [admission?, Option.some.injEq] at h
    obtain ⟨rfl, rfl, hseq, hcfg⟩ := admitReady_ok h
    exact ⟨hseq, .inl ⟨by simp, hcfg, rfl, rfl⟩⟩
  | _ => simp [admission?] at h

/-- Only the two bounded operations have a failing course, and they fail before any event (60_exceptions.md R211). -/
theorem raise_of_busyPlan {p : Params} {i : Instr} {es : List TraceElem} {st : Status}
    (h : busyPlan? p i = some (.raise es st)) :
    es = [] ∧ st = .invalidArgument ∧
      ((∃ d n v, i = .writeNibble d n v ∧ (10 ≤ d ∨ 4 ≤ n)) ∨ (∃ d ch, i = .putChar d ch ∧ 10 ≤ d)) := by
  cases i with
  | init =>
    simp only [busyPlan?, Option.some.injEq] at h
    by_cases hb : p.bulkNibbles = 0
    · rw [planInit_none hb] at h; cases h
    · rw [planInit_eq hb] at h; cases h
  | sendCommand code => simp [busyPlan?, planSendCommand_eq] at h
  | writeNibble d n v =>
    simp only [busyPlan?, Option.some.injEq] at h
    by_cases hb : d < 10 ∧ n < 4
    · rw [planWriteNibble_inBounds hb.1 hb.2] at h; cases h
    · rw [planWriteNibble_outOfBounds (by omega)] at h
      cases h
      exact ⟨rfl, rfl, .inl ⟨d, n, v, rfl, by omega⟩⟩
  | writeBurst a ns =>
    simp only [busyPlan?, planWriteBurst, Option.some.injEq] at h
    split at h <;> cases h
  | setAll on =>
    simp only [busyPlan?, Option.some.injEq] at h
    by_cases hb : p.bulkNibbles = 0
    · rw [planSetAll_none hb] at h; cases h
    · rw [planSetAll_eq hb] at h; cases h
  | clear =>
    simp only [busyPlan?, Option.some.injEq] at h
    by_cases hb : p.bulkNibbles = 0
    · rw [planClear_none hb] at h; cases h
    · rw [planClear_eq hb] at h; cases h
  | putChar d ch =>
    simp only [busyPlan?, Option.some.injEq] at h
    by_cases hr : highCodeRefused p ch = true
    · rw [planPutChar_refused hr] at h; cases h
    · by_cases hd : d < 10
      · rw [planPutChar_eq (by simpa using hr) hd] at h; cases h
      · rw [planPutChar_badDigit (by simpa using hr) (by omega)] at h
        cases h
        exact ⟨rfl, rfl, .inr ⟨d, ch, rfl, by omega⟩⟩
  | putString text =>
    simp only [busyPlan?, Option.some.injEq] at h
    by_cases hr : ∃ k, k < 10 ∧ highCodeRefused p (stringChar text k) = true
    · obtain ⟨k, hk, hr⟩ := hr
      rw [planPutString_refused hk hr] at h; cases h
    · rw [planPutString_eq fun k hk => by simpa using fun hc => hr ⟨k, hk, hc⟩] at h; cases h
  | _ => simp [busyPlan?] at h

/-- Everything a host operation that has a next state can have done: its course and OK; or, on its bounds, nothing and
InvalidArgument; or INIT, rejected by the platform. -/
theorem hostOperation_cases {i : Instr} {s t : State} (hi : isHostOperation i = true) (h : exec i s = .next t) :
    s.seq = .idle ∧
    ((∃ es u, busyPlan? s.params i = some (.run es) ∧
        ((i ≠ .init ∧ s.cfg = true ∧ u = s) ∨ (i = .init ∧ s.cfgOk = true ∧ u = configureLines s)) ∧
        t = complete .ok (play es u)) ∨
      (i ≠ .init ∧ s.cfg = true ∧ busyPlan? s.params i = some (.raise [] .invalidArgument) ∧
        t = failWith .invalidArgument s) ∨
      (i = .init ∧ s.cfgOk = false ∧ t = failWith .configFailure (rejectLines s))) := by
  obtain ⟨a, ha⟩ := Option.isSome_iff_exists.mp ((admission_isSome i s).trans hi)
  rw [exec_of_admission ha] at h
  rcases a with r | ⟨u, p⟩
  · simp [runAdmitted] at h
  · obtain ⟨hseq, hcase⟩ := admission_ok ha
    refine ⟨hseq, ?_⟩
    simp only [runAdmitted] at h
    rcases hcase with ⟨hni, hcfg, rfl, hp⟩ | ⟨rfl, hok, rfl, hp⟩ | ⟨rfl, hok, rfl, rfl⟩
    · cases p with
      | run es =>
        simp only [runPlan, Host.Outcome.next.injEq] at h
        exact .inl ⟨es, u, hp, .inl ⟨hni, hcfg, rfl⟩, h.symm⟩
      | raise es st =>
        obtain ⟨rfl, rfl, -⟩ := raise_of_busyPlan hp
        simp only [runPlan, play_nil, Host.Outcome.next.injEq] at h
        exact .inr (.inl ⟨hni, hcfg, hp, h.symm⟩)
      | refuse r => simp [runPlan] at h
    · cases p with
      | run es =>
        simp only [runPlan, Host.Outcome.next.injEq] at h
        exact .inl ⟨es, _, hp, .inr ⟨rfl, hok, rfl⟩, h.symm⟩
      | raise es st =>
        obtain ⟨-, -, h3 | h3⟩ := raise_of_busyPlan hp
        · obtain ⟨_, _, _, h3, -⟩ := h3; cases h3
        · obtain ⟨_, _, h3, -⟩ := h3; cases h3
      | refuse r => simp [runPlan] at h
    · simp only [runPlan, play_nil, Host.Outcome.next.injEq] at h
      exact .inr (.inr ⟨rfl, hok, h.symm⟩)

end Sys2Proof.Machine
end

