-- ==== Sys2Proof/Laws/Requests.lean ====
section
/-! SUPPORT. Request words: each field of an assembled word is what was put there, at every `OPERAND_BITS`
(30_encoding.md R92). -/

namespace Sys2Proof

theorem operandFits_iff (n v : Nat) : operandFits n v = true ↔ v < 2 ^ n := by
  rw [operandFits, decide_eq_true_iff]

theorem requestOp_lt (n word : Nat) : requestOp n word < 16 := Nat.mod_lt _ (by decide)

theorem requestField_fits (n index word : Nat) : operandFits n (requestField n index word) = true := by
  rw [operandFits_iff]
  exact Nat.mod_lt _ (Nat.two_pow_pos n)

theorem listOperand_fits (n : Nat) (list : List Nat) : (listOperand n list).all (operandFits n) = true := by
  simp only [listOperand, List.all_map, List.all_eq_true]
  intro v _
  exact (operandFits_iff n _).mpr (Nat.mod_lt _ (Nat.two_pow_pos n))

/-- What is above the lowest field of a word, and the lowest field. -/
theorem field_div_mod {n : Nat} (high : Nat) {low : Nat} (h : low < 2 ^ n) :
    (high * 2 ^ n + low) / 2 ^ n = high ∧ (high * 2 ^ n + low) % 2 ^ n = low := by
  constructor
  · rw [Nat.add_comm, Nat.add_mul_div_right _ _ (Nat.two_pow_pos n), Nat.div_eq_of_lt h, Nat.zero_add]
  · rw [Nat.add_comm, Nat.add_mul_mod_self_right, Nat.mod_eq_of_lt h]

/-- The four fields of an assembled request word. -/
theorem requestFields_requestWord {n op a0 a1 a2 : Nat} (hop : op < 16) (h0 : a0 < 2 ^ n) (h1 : a1 < 2 ^ n)
    (h2 : a2 < 2 ^ n) :
    requestOp n (requestWord n op a0 a1 a2) = op ∧ requestA0 n (requestWord n op a0 a1 a2) = a0 ∧
    requestA1 n (requestWord n op a0 a1 a2) = a1 ∧ requestA2 n (requestWord n op a0 a1 a2) = a2 := by
  have shift (k : Nat) : 2 ^ (n * (k + 1)) = 2 ^ n * 2 ^ (n * k) := by rw [← pow_add]; congr 1; ring
  simp only [requestOp, requestA0, requestA1, requestA2, requestField, requestWord, show (3 : Nat) = 2 + 1 by rfl,
    show (2 : Nat) = 1 + 1 by rfl, shift, ← Nat.div_div_eq_div_mul]
  simp [field_div_mod, hop, h0, h1, h2, Nat.mod_eq_of_lt]

theorem listOperand_fit {n : Nat} {values : List Nat} (h : values.all (operandFits n) = true) :
    listOperand n values = values := by
  refine (List.map_congr_left (g := id) fun v hv => ?_).trans (List.map_id _)
  exact Nat.mod_eq_of_lt ((operandFits_iff n v).mp (List.all_eq_true.mp h v hv))

end Sys2Proof
end

