-- ==== Sys2Proof/Tests/Slice0.lean ====
section
/-! SUPPORT. The model's own tests. Expected values come from spec/95_test_vectors.md (the vector's name stands in the
comment) or from the encodings written out bit by bit from spec/30_encoding.md. -/

namespace Sys2Proof.Tests

open Sys2Proof.Machine

/-! ### Helpers -/

/-- `GLYPH_TEST` (95_test_vectors.md section 3). -/
def glyphTest : GlyphTable :=
  ⟨0x8001, 0x1111, 0xBEEF, 0x3C3C, 0x1234, 0x5A5A, 0x6996, 0x7007, 0xFFFF, 0x9ABC, 0xA00A, 0x0B0B, 0xC0DE, 0xD00D,
    0xE1E1, 0xF00F, 0x0240⟩

/-- The vectors' parameters: the defaults with `GLYPH_TEST`. -/
def testParams : Params := ⟨40, false, .blank, 1000, 8, glyphTest⟩

/-- A configured, idle driver over a given RAM. -/
def readyWith (p : Params) (ram : Memory) : State :=
  { State.reset with
    pins := ⟨.high, .high, .low⟩
    cfg := true
    cfgLines := ⟨.configured, .configured, .configured⟩
    rx := ⟨ram, [], false, [], false⟩
    params := p }

/-- A configured, idle driver, nothing known of the RAM. -/
def ready : State := readyWith testParams []

/-- The same with an open bracket: `pin[CS] = 0` (the start state of BT1 to BT5). -/
def bracketOpen (data : Level) : State :=
  { ready with pins := ⟨.low, .high, data⟩, rx := ⟨[], [], true, [], false⟩ }

/-- The next state, for looking into it. -/
def nextOf (o : Host.Outcome State Fault Refusal) : Option State :=
  match o with
  | .next s => some s
  | .fault _ => none
  | .refused _ => none

/-- The refusal, for looking at it. -/
def refusalOf (o : Host.Outcome State Fault Refusal) : Option Refusal :=
  match o with
  | .next _ => none
  | .fault _ => none
  | .refused r => some r

/-- The display RAM as 64 cells. -/
def cellsFrom (s : State) (start count : Nat) : List (Option Nibble) :=
  (List.range count).map fun i => s.rx.ram.read (start + i)

/-! ### Well-formedness: an ill-formed term for each check -/

theorem test_wf_empty_burst_frame : (Instr.writeBurstFrame 0 []).wellFormed 8 = false := by decide
theorem test_wf_reserved_tag_is_command : (Instr.reservedTag [true, false, false, true]).wellFormed 8 = false := by decide
theorem test_wf_reserved_tag_is_write : (Instr.reservedTag [true, false, true]).wellFormed 8 = false := by decide
theorem test_wf_reserved_tag_short : (Instr.reservedTag [true, true]).wellFormed 8 = false := by decide
theorem test_wf_command_operand : (Instr.sendCommand 0x100).wellFormed 8 = false := by decide
theorem test_wf_digit_operand : (Instr.writeNibble 256 0 0).wellFormed 8 = false := by decide
theorem test_wf_nibble_operand : (Instr.writeNibble 0 256 0).wellFormed 8 = false := by decide
theorem test_wf_value_operand : (Instr.writeNibble 0 0 256).wellFormed 8 = false := by decide
theorem test_wf_start_operand : (Instr.writeBurst 256 [1]).wellFormed 8 = false := by decide
theorem test_wf_burst_list : (Instr.writeBurst 0 [1, 256]).wellFormed 8 = false := by decide
theorem test_wf_on_operand : (Instr.setAll 256).wellFormed 8 = false := by decide
theorem test_wf_char_digit : (Instr.putChar 256 0).wellFormed 8 = false := by decide
theorem test_wf_char_code : (Instr.putChar 0 256).wellFormed 8 = false := by decide
theorem test_wf_string_list : (Instr.putString [256]).wellFormed 8 = false := by decide
theorem test_wf_reserved_op_low : (Instr.reservedOp 7).wellFormed 8 = false := by decide
theorem test_wf_reserved_op_high : (Instr.reservedOp 16).wellFormed 8 = false := by decide

/-! ### Decoding: words written out from 30_encoding.md -/

/-- COMMAND 0x55, `100 01010101` (F11). -/
theorem test_decode_command :
    decodeFrame [true, false, false, false, true, false, true, false, true, false, true] = .ok (.command 0x55) := by
  decide

/-- The nine named commands, `W = 0x400 | code` (30_encoding.md R86). -/
theorem test_decode_named_commands :
    [0x400, 0x401, 0x402, 0x403, 0x408, 0x418, 0x41C, 0x490, 0x4A0].map (decodeTableWord 16) =
      [some .cmdSysDis, some .cmdSysEn, some .cmdLcdOff, some .cmdLcdOn, some .cmdToneOff, some .cmdRc32k,
        some .cmdExt32k, some .cmdIrqDis, some .cmdTimebase1hz] := by
  decide

/-- WRITE 13, 6: `101 001101 0110` (X2). -/
theorem test_decode_write :
    decodeFrame [true, false, true, false, false, true, true, false, true, false, true, true, false] =
      .ok (.write 13 6) := by
  decide

/-- WRITE 63, 9 as the table's word `0x17F9` (W5). -/
theorem test_decode_write_word : decodeTableWord 16 0x17F9 = some (.write 63 9) := by decide

/-- A burst of two: `101 001000 1010 0101` (X3). -/
theorem test_decode_burst :
    decodeFrame [true, false, true, false, false, true, false, false, false, true, false, true, false, false, true,
      false, true] = .ok (.writeBurstFrame 8 [0xA, 0x5]) := by
  decide

/-- The table's burst header `H = 0x140 | 8` with two zero groups (30_encoding.md R83). -/
theorem test_decode_burst_word : decodeTableWord 16 0x148 = some (.writeBurstFrame 8 [0, 0]) := by decide

/-- `110 000000 0000` (X6). -/
theorem test_decode_reserved_tag :
    decodeFrame ([true, true, false] ++ List.replicate 10 false) =
      .ok (.reservedTag ([true, true, false] ++ List.replicate 10 false)) := by
  decide

/-- X7, X8, X9, X10, X11: no frame. -/
theorem test_decode_no_frame :
    [decodeFrame ([true, false, false] ++ List.replicate 7 false),
      decodeFrame ([true, false, true] ++ List.replicate 9 false),
      decodeFrame ([true, false, true] ++ List.replicate 6 false), decodeFrame [],
      decodeFrame ([true, false, false] ++ List.replicate 9 false)] =
      [.error .commandLength, .error .writeLength, .error .writeLength, .error .noTag, .error .commandLength] := by
  decide

/-- A 13-bit word of tag 101 and a 169-bit CLEAR burst (X4). -/
theorem test_parse_clear :
    parseFrame ([true, false, true] ++ List.replicate 166 false) = some (.write 0 (List.replicate 40 0)) := by
  decide +kernel

/-- Every request row (the words of sections 2.2 to 2.6). -/
theorem test_decode_requests :
    [0x0000000, 0x1550000, 0x209031B, 0x3480000, 0x4020000, 0x5000000, 0x6024300, 0x7000000, 0x8000000, 0xF000000].map
        (decodeTableWord 32) =
      [some .init, some (.sendCommand 0x55), some (.writeNibble 9 3 0x1B), some (.writeBurst 0x48 [0]),
        some (.setAll 2), some .clear, some (.putChar 2 0x43), some (.putString [0]), some (.reservedOp 8),
        some (.reservedOp 15)] := by
  decide

/-- A request's side list (B7). -/
theorem test_decode_burst_request :
    decodeRequest 8 0x33E0000 [0x01, 0x02, 0x03] = .writeBurst 0x3E [1, 2, 3] := by decide

/-- F12: an operand of 0x1FF, which only a wider port can hold (here `OPERAND_BITS` = 9); at 8 it is not well formed. -/
theorem test_decode_wide_operand :
    decodeRequest 9 (requestWord 9 1 0x1FF 0 0) [] = .sendCommand 0x1FF ∧
    (Instr.sendCommand 0x1FF).wellFormed 9 = true ∧ (Instr.sendCommand 0x1FF).wellFormed 8 = false := by decide

/-- A table word reaches the port of a block with wider operands as the same instruction (A3). -/
theorem test_relay_request :
    decodeRequest 12 (relayRequest 8 12 0x209031B) [] = .writeNibble 9 3 0x1B := by decide

/-- At a narrower port an operand that does not fit loses its high bits and leaves the operation alone (log 28). -/
theorem test_relay_request_narrow :
    decodeRequest 4 (relayRequest 8 4 0x1FF0000) [] = .sendCommand 0xF := by decide

/-- `WRITE_ADDR 5, 0xA` puts `1010001011010` on the wire (41_frame_encoder.md R132). -/
theorem test_frame_bits_write :
    (Transaction.write 5 [0xA]).frameBits =
      [true, false, true, false, false, false, true, false, true, true, false, true, false] := by
  decide

/-- `WRITE_NIBBLE 9, 3, 0x1B` as a word (A5). -/
theorem test_encode_write_nibble : encode 8 (.writeNibble 9 3 0x1B) = some (.request 0x209031B []) := by decide

/-! ### Bit transport (section 2.1) -/

/-- BT1: `EMIT_BIT 1`. -/
theorem test_emit_bit :
    (nextOf (exec (.emitBit true) (bracketOpen .low))).map (fun s => (s.trace, s.pins, s.rx.bits)) =
      some ([.line .data true, .line .wr false, .wait, .line .wr true, .wait], ⟨.low, .high, .high⟩, [true]) := by
  decide

/-- BT8: `EMIT_BIT 1` with `pin[CS] = 1` samples nothing. -/
theorem test_emit_bit_released :
    (nextOf (exec (.emitBit true) ready)).map (fun s => (s.pins, s.rx.bits)) =
      some (⟨.high, .high, .high⟩, []) := by
  decide

/-- BT5: `EMIT_WORD 0x1A5, 4` emits 0101. -/
theorem test_emit_word :
    (nextOf (exec (.emitWord 0x1A5 4) (bracketOpen .low))).map (fun s => (s.pins, s.rx.bits)) =
      some (⟨.low, .high, .high⟩, [false, true, false, true]) := by
  decide

/-- BT6: `CS_ASSERT` from idle. -/
theorem test_cs_assert :
    (nextOf (exec .csAssert ready)).map (fun s => (s.trace, s.pins, s.rx.isOpen)) =
      some ([.line .cs false], ⟨.low, .high, .low⟩, true) := by
  decide

/-- BT7: `CS_RELEASE` after BT6 with no bit: the receiver faults. -/
theorem test_cs_release :
    (nextOf (exec .csRelease (bracketOpen .low))).map (fun s => (s.trace, s.pins, s.rx.isOpen, s.rx.fault)) =
      some ([.line .cs true], ⟨.high, .high, .low⟩, false, true) := by
  decide

/-- W6: `WRITE_ADDR 0x47, 0x1B` writes 0xB to address 7. -/
theorem test_write_addr :
    (nextOf (exec (.writeAddr 0x47 0x1B) ready)).map (fun s => (s.trace.length, s.pins, s.rx.log, s.rx.ram)) =
      some (67, ⟨.high, .high, .high⟩, [.write 7 [0xB]], [(7, 0xB)]) := by
  decide +kernel

/-! ### The receiver's frames (section 2.8) -/

/-- X1. -/
theorem test_command_logs :
    (nextOf (exec .cmdSysEn (readyWith testParams [(3, 4)]))).map (fun s => s.rx) =
      some ⟨[(3, 4)], [], false, [.cmd 0x01], false⟩ := by
  decide

/-- X3, over a known cell that it overwrites and one that it leaves. -/
theorem test_burst_frame_stores :
    (nextOf (exec (.writeBurstFrame 8 [0xA, 0x5]) (readyWith testParams [(9, 1), (10, 2)]))).map (fun s => s.rx) =
      some ⟨[(8, 0xA), (9, 0x5), (10, 2)], [], false, [.write 8 [0xA, 0x5]], false⟩ := by
  decide

/-- X5: the third nibble passes 63. -/
theorem test_burst_frame_past_top :
    (nextOf (exec (.writeBurstFrame 62 [1, 2, 3]) (readyWith testParams [(9, 1)]))).map (fun s => s.rx) =
      some ⟨[], [], false, [.write 62 [1, 2, 3]], true⟩ := by
  decide

/-- X6. -/
theorem test_reserved_tag :
    (nextOf (exec (.reservedTag [true, true, false]) (readyWith testParams [(9, 1)]))).map (fun s => s.rx) =
      some ⟨[], [], false, [], true⟩ := by
  decide

/-! ### Host operations (sections 2.2 to 2.6) -/

/-- F1: the pins, the log, the status. -/
theorem test_send_command :
    (nextOf (exec (.sendCommand 0x01) ready)).map (fun s => (s.pins, s.rx.log, s.status)) =
      some (⟨.high, .high, .high⟩, [.cmd 0x01], some .ok) := by
  decide +kernel

/-- F1: the two ends of its full trace, and its length. -/
theorem test_send_command_trace :
    (nextOf (exec (.sendCommand 0x01) ready)).map (fun s => (s.trace.length, s.trace.take 6, s.trace.drop 51)) =
      some (57, [.line .cs false, .line .data true, .line .wr false, .wait, .line .wr true, .wait],
        [.line .data true, .line .wr false, .wait, .line .wr true, .wait, .line .cs true]) := by
  decide +kernel

/-- F12: a code wider than its field. -/
theorem test_send_command_masks :
    (nextOf (exec (.sendCommand 0x1FF) ready)).map (fun s => (s.rx.log, s.status)) =
      some ([.cmd 0xFF], some .ok) := by
  decide +kernel

/-- A5: the value is masked. -/
theorem test_write_nibble :
    (nextOf (exec (.writeNibble 9 3 0x1B) ready)).map (fun s => (s.trace.length, s.rx.ram, s.status)) =
      some (67, [(39, 0xB)], some .ok) := by
  decide +kernel

/-- A8: nibble index 4. -/
theorem test_write_nibble_rejects :
    nextOf (exec (.writeNibble 0 4 5) ready) = some { ready with status := some .invalidArgument } := rfl

/-- B4: start address and nibble are masked. -/
theorem test_write_burst :
    (nextOf (exec (.writeBurst 0x48 [0x1F]) ready)).map (fun s => (s.rx.log, s.rx.ram, s.status)) =
      some ([.write 8 [0xF]], [(8, 0xF)], some .ok) := by
  decide +kernel

/-- B9: the empty burst. -/
theorem test_write_burst_empty : refusalOf (exec (.writeBurst 0 []) ready) = some .emptyBurst := by decide

/-- BK7: `SET_ALL 0x02` is on. -/
theorem test_set_all :
    (nextOf (exec (.setAll 0x02) ready)).map (fun s => (s.trace.length, cellsFrom s 0 40, cellsFrom s 40 24)) =
      some (847, List.replicate 40 (some 0xF), List.replicate 24 none) := by
  decide +kernel

/-- BK5: `SET_ALL 0` with the reference size 32 leaves cells 32 to 39. -/
theorem test_set_all_reference_size :
    (nextOf (exec (.setAll 0) (readyWith ⟨32, false, .blank, 1000, 8, glyphTest⟩ [(33, 7)]))).map
        (fun s => (cellsFrom s 0 32, cellsFrom s 32 3)) =
      some (List.replicate 32 (some 0), [none, some 7, none]) := by
  decide +kernel

/-- BK3. -/
theorem test_clear :
    (nextOf (exec .clear ready)).map (fun s => (s.rx.log, s.pins, s.status)) =
      some ([.write 0 (List.replicate 40 0)], ⟨.high, .high, .low⟩, some .ok) := by
  decide +kernel

/-- PC2: 'C', mask 0xC0DE, at digit 2. -/
theorem test_put_char :
    (nextOf (exec (.putChar 2 0x43) ready)).map (fun s => (s.trace.length, s.rx.log, s.status)) =
      some (268, [.write 8 [0xE], .write 9 [0xD], .write 10 [0x0], .write 11 [0xC]], some .ok) := by
  decide +kernel

/-- PC6: digit 10. -/
theorem test_put_char_rejects :
    nextOf (exec (.putChar 10 0x43) ready) = some { ready with status := some .invalidArgument } := rfl

/-- S4: no entry for 'a' and 0x80, 0x00 does not end the string. -/
theorem test_put_string :
    (nextOf (exec (.putString [0x2D, 0x61, 0x46, 0x80, 0x00, 0x31]) ready)).map
        (fun s => (s.trace.length, cellsFrom s 0 24)) =
      some (2680, [0, 4, 2, 0, 0, 0, 0, 0, 0xF, 0, 0, 0xF, 0, 0, 0, 0, 0, 0, 0, 0, 1, 1, 1, 1].map some) := by
  decide +kernel

/-- L1 and program P1: INIT from reset. -/
theorem test_init :
    (nextOf (exec .init State.reset)).map (fun s => (s.cfg, s.pins, s.status, s.rx.log, s.trace.length)) =
      some (true, ⟨.high, .high, .low⟩, some .ok,
        [.cmd 0x01, .cmd 0x03, .cmd 0x18, .cmd 0x08, .cmd 0x90, .cmd 0xA0, .write 0 (List.replicate 40 0)], 1192) := by
  decide +kernel

/-- L2: the platform rejects. -/
theorem test_init_rejected :
    (nextOf (exec .init { State.reset with cfgOk := false })).map
        (fun s => (s.cfg, s.pins, s.status, s.trace, s.rx)) =
      some (false, Pins.atReset, some .configFailure, [], Receiver.atReset) := rfl

/-- L4, L5, L8, L9, L10: the refusals. -/
theorem test_refusals :
    [refusalOf (exec .init ready), refusalOf (exec .clear State.reset), refusalOf (exec (.reservedOp 15) ready),
      refusalOf (exec .clear { ready with seq := .busy (.putString []) 3 }), refusalOf (construct ⟨4, 4, 5⟩),
      refusalOf (exec (.putChar 3 0x80) (readyWith ⟨40, false, .refuse, 1000, 8, glyphTest⟩ []))] =
      [some .alreadyInitialised, some .notInitialised, some .reservedOp, some .busy, some .linesNotDistinct,
        some .codeAbove127] := by
  decide

/-! ### The step -/

/-- A table word at the port is what the next step runs (A3). -/
theorem test_step_runs_word :
    (nextOf (step (ready.withFetchWord 32 0x2030106))).map (fun s => (s.rx.ram, s.port)) =
      some ([(13, 6)], none) := by
  decide +kernel

/-- One line event a step: the request is accepted and the first event is chip-select. -/
theorem test_step_event_grain :
    (nextOf (step { (ready.withFetchWord 32 0x1010000) with grain := .event })).map (fun s => (s.seq, s.trace)) =
      some (.busy (.sendCommand 1) 0, []) := by
  decide +kernel

/-- The next event of an operation in progress. -/
theorem test_step_advances :
    (nextOf (step { ready with seq := .busy (.sendCommand 1) 0 })).map (fun s => (s.seq, s.trace, s.pins)) =
      some (.busy (.sendCommand 1) 1, [.line .cs false], ⟨.low, .high, .low⟩) := by
  decide +kernel

/-- What an observer of the lines reads of a COMMAND (F5): 11 bits in one bracket. -/
theorem test_observed_bits :
    observedBits (wireEvents (.cmd 0x18)) =
      [[true, false, false, false, false, false, true, true, false, false, false]] := by
  decide

/-- The row of `SEND_COMMAND` in 70_reset_and_hazards.md R255. -/
theorem test_counts :
    (lineEventCount (sendCommandEvents 1), waitCount (sendCommandEvents 1),
      minimumDuration testParams (sendCommandEvents 1)) = (35, 22, 22000) := by
  decide

/-! ### Witnesses: for every statement with hypotheses, states and operands that meet them together, at the boundaries -/

/-- The vectors' parameters with `GLYPH_HIGH_CODES = refuse`. -/
def refuseParams : Params := ⟨40, false, .refuse, 1000, 8, glyphTest⟩

/-- Bulk sizes other than the default. -/
def bulkParams (n : Nat) : Params := ⟨n, true, .blank, 1000, 8, glyphTest⟩

theorem readyWith_isReady (p : Params) (ram : Memory) : (readyWith p ram).Ready := ⟨rfl, rfl, ⟨rfl, rfl, by simp [readyWith]⟩, rfl, rfl⟩

theorem readyWith_inv (p : Params) (ram : Memory) (h : ram.wf) : (readyWith p ram).Inv :=
  ⟨h, rfl, nofun, fun _ _ => ⟨⟨rfl, rfl, by simp [readyWith]⟩, rfl, rfl⟩, nofun, fun _ _ => rfl⟩

/-- A state in the middle of an operation. -/
def midCommand : State := { ready with seq := .busy (.sendCommand 1) 0 }

theorem midCommand_inv : midCommand.Inv :=
  ⟨by simp [midCommand, ready, readyWith, Memory.wf], by decide, nofun, nofun,
    fun op k h => by
      cases h
      exact ⟨rfl, sendCommandEvents 1, rfl, by decide +kernel, (midCommand.pins, midCommand.rx),
        .inl ⟨rfl, rfl, by decide⟩, ⟨rfl, rfl⟩, rfl, rfl, rfl⟩,
    fun _ _ => rfl⟩

theorem witness_DecodeOfEncodeIsTheRow :
    (Instr.emitWord 5 3).wellFormed 8 = true ∧ isPrimitive (.emitWord 5 3) = true ∧
    (Instr.writeNibble 255 255 255).wellFormed 8 = true ∧ isPrimitive (.writeNibble 255 255 255) = false := by decide

theorem witness_ReceiverRecoversEveryFrame : ([0xF] : List Nibble) ≠ [] := by decide

theorem witness_ReceivedBitsAreTheFrame :
    parseFrame ([true, false, false] ++ List.replicate 8 true) = some (.cmd 0xFF) ∧
    parseFrame ([true, false, true] ++ List.replicate 10 true) = some (.write 63 [0xF]) := by decide

theorem witness_KnownCommandCodes : Instr.namedCode? .cmdTimebase1hz = some 0xA0 := rfl

/-- A request for a `Request` of the script: SEND_COMMAND 1. -/
def sendOne : Request := ⟨0x1010000, [], true⟩

/-- The host's next request, none at the port. -/
def scripted (g : Grain) : State := { ready with script := [sendOne], grain := g }

/-- The situations of a step: a request or a frame at the port, the host's next request, an operation in progress at its
first and at its last trace element, and nothing to do. -/
theorem witness_StepRunsTheDecodedInstruction :
    ((ready.withFetchWord 32 0x5000000).port = some (.request ⟨0x5000000, [0], true⟩) ∧ ready.grain = .operation) ∧
    ((ready.withFetchWord 16 0x455).port = some (.frame (msbFirst 0x455 11)) ∧
      decodeFrame (msbFirst 0x455 11) = .ok (.command 0x55)) ∧
    decodeFrame [true, false, false] = .error .commandLength ∧
    ((scripted .operation).port = none ∧ (scripted .operation).seq = .idle ∧
      (scripted .operation).script = [sendOne] ∧ (scripted .event).grain = .event) ∧
    (busyPlan? midCommand.params (.sendCommand 1) = some (.run (sendCommandEvents 1)) ∧ midCommand.port = none ∧
      (sendCommandEvents 1)[0]? = some (.line .cs false) ∧ (sendCommandEvents 1)[56]? = some (.line .cs true) ∧
      (sendCommandEvents 1).length = 57) ∧
    (ready.port = none ∧ ready.seq = .idle ∧ ready.script = []) := by decide +kernel

/-- A next request runs, at either grain: accepted whole, or begun. -/
theorem test_step_script :
    (nextOf (step (scripted .operation))).map (fun s => (s.rx.log, s.status, s.script)) =
      some ([.cmd 1], some .ok, []) ∧
    (nextOf (step (scripted .event))).map (fun s => (s.seq, s.trace, s.script)) =
      some (.busy (.sendCommand 1) 0, [], []) := by decide +kernel

theorem witness_EventGrainRefinesOperationGrain :
    isHostOperation (.sendCommand 1) = true ∧
    (nextOf (exec (.sendCommand 1) { ready with grain := .event })).isSome = true ∧
    refusalOf (exec .init { ready with grain := .event }) = some .alreadyInitialised ∧
    decodeRequest ready.params.operandBits sendOne.word sendOne.list = .sendCommand 1 ∧
    (scripted .event).seq = .idle ∧ (scripted .event).script = [sendOne] := by decide +kernel

theorem witness_ConstructionNeedsDistinctLines :
    ((⟨0, 1, 2⟩ : Handle).cs ≠ 1 ∧ (⟨0, 1, 2⟩ : Handle).wr ≠ 2) ∧
    ¬ ((⟨4, 5, 5⟩ : Handle).cs ≠ 5 ∧ (⟨4, 5, 5⟩ : Handle).cs ≠ 5 ∧ (⟨4, 5, 5⟩ : Handle).wr ≠ 5) := by decide

/-- States between requests and inside one, each with a next state. -/
theorem witness_EveryStepKeepsTheInvariant :
    midCommand.Inv ∧ (nextOf (step midCommand)).isSome = true ∧
    ready.Inv ∧ (nextOf (step (ready.withFetchWord 32 0x20903FF))).isSome = true :=
  ⟨midCommand_inv, by decide +kernel, readyWith_inv _ _ (by simp [Memory.wf]), by decide +kernel⟩

theorem witness_TraceDeterminesLinesAndReceiver :
    (∀ bits, (State.reset.withFetchWord 32 0).port ≠ some (.frame bits)) ∧
    wireRun (Pins.atReset, Receiver.atReset) State.reset.trace = (State.reset.pins, State.reset.rx) ∧
    (nextOf (step (State.reset.withFetchWord 32 0))).isSome = true := ⟨nofun, rfl, by decide +kernel⟩

/-- INIT sets `cfg`; CLEAR keeps it. -/
theorem witness_EveryStepKeepsConfigurationAndHistory :
    (nextOf (exec .init State.reset)).map State.cfg = some true ∧
    State.reset.cfg = false ∧ (nextOf (step (State.reset.withFetchWord 32 0))).map State.cfg = some true ∧
    ready.cfg = true ∧ (nextOf (step (ready.withFetchWord 32 0x5000000))).map State.cfg = some true := by
  decide +kernel

/-- A receiver that has faulted. -/
def faulted : State := { ready with rx := ⟨[], [], false, [], true⟩ }

theorem witness_ReceiverFaultIsSticky :
    faulted.rx.fault = true ∧ (nextOf (exec .clear faulted)).isSome = true ∧
    (nextOf (step (faulted.withFetchWord 16 0x17F9))).isSome = true := by decide +kernel

/-- Two nibbles from 63 pass the top; so does a bulk size of 65. -/
theorem witness_DriverFaultsTheReceiverOnlyPast63 :
    ready.Inv ∧ ready.rx.fault = false ∧
    (nextOf (exec (.writeBurst 63 [1, 2]) ready)).map (fun t => t.rx.fault) = some true ∧
    (nextOf (exec .clear (readyWith (bulkParams 65) []))).map (fun t => t.rx.fault) = some true :=
  ⟨readyWith_inv _ _ (by simp [Memory.wf]), by decide +kernel⟩

/-- The bracket states of the primitives' statements. -/
theorem witness_Primitives :
    (bracketOpen .low).cfg = true ∧ (bracketOpen .low).pins.cs = .low ∧ (bracketOpen .low).pins.wr = .high ∧
    (bracketOpen .low).rx.isOpen = true ∧ ready.cfg = true ∧ ready.pins.cs = .high ∧ ready.pins.wr = .high ∧
    isPrimitive .csAssert = true := by decide

theorem witness_BracketEdgesOutsideTheProtocol :
    (bracketOpen .low).pins.wr ≠ .low ∧ ready.pins.cs ≠ .low ∧
    ({ bracketOpen .low with pins := ⟨.low, .low, .low⟩ } : State).cfg = true := by decide

theorem witness_WriteAddrSendsOneWrite : ready.cfg = true ∧ ready.pins.idle := ⟨rfl, rfl, rfl, by decide⟩

/-- The last nibble at 63, and one more. -/
theorem witness_ReceivedWriteStoresAscending :
    (60 : Address).toNat + [1, 2, 3, 4].length ≤ 64 ∧ 64 < (60 : Address).toNat + [1, 2, 3, 4, 5].length := by decide

theorem witness_ReceivedWriteIsIdempotent :
    Memory.wf [(9, 1)] ∧ (63 : Address).toNat + [(7 : Nibble)].length ≤ 64 := by
  refine ⟨by simp [Memory.wf, Config.ramCells], by decide⟩

/-- `Ready` holds together with every operand bound the completions ask for. -/
theorem witness_Completions :
    ready.Ready ∧ (9 < 10 ∧ 3 < 4) ∧ ([0] : List Nat) ≠ [] ∧ (bulkParams 1).legal = true ∧
    (bulkParams 64).legal = true ∧ (refuseParams.glyphHighCodes = .refuse → 127 ≤ 127) ∧ ready.rx.fault = false :=
  ⟨readyWith_isReady _ _, by decide⟩

/-- Eleven codes; only the eleventh is above 127. -/
theorem witness_PutStringCompletes :
    (readyWith refuseParams []).Ready ∧
    ∀ k, k < 10 → ∀ ch, (List.replicate 10 0x34 ++ [200])[k]? = some ch → ch ≤ 127 := by
  refine ⟨readyWith_isReady _ _, fun k hk ch h => ?_⟩
  rw [List.getElem?_append_left (by simpa using hk), List.getElem?_replicate, if_pos hk] at h
  cases h
  decide

theorem witness_OutOfBounds : ready.seq = .idle ∧ ready.cfg = true ∧ (10 ≤ 10 ∨ 4 ≤ 0) ∧ (10 ≤ 0 ∨ 4 ≤ 4) := by decide

/-- A first INIT on undriven lines, and a second one on idle lines where `ALLOW_REINIT` holds. -/
theorem witness_InitCompletes :
    (State.reset.seq = .idle ∧ State.reset.cfg = false ∧ State.reset.handle.distinct = true ∧ State.reset.cfgOk = true ∧
      State.reset.params.legal = true ∧ State.reset.pins = Pins.atReset ∧ State.reset.rx.idle) ∧
    ((readyWith (bulkParams 64) []).params.allowReinit = true ∧ (readyWith (bulkParams 64) []).pins.idle ∧
      (readyWith (bulkParams 64) []).params.legal = true ∧ (readyWith (bulkParams 64) []).rx.idle) :=
  ⟨⟨rfl, rfl, rfl, rfl, rfl, rfl, rfl, rfl⟩, rfl, ⟨rfl, rfl, by decide⟩, rfl, rfl, rfl⟩

theorem witness_InitFromReset : (bulkParams 1).legal = true ∧ (⟨7, 8, 9⟩ : Handle).distinct = true := by decide

theorem witness_InitRejectedByThePlatform :
    ({ State.reset with cfgOk := false } : State).cfgOk = false ∧ State.reset.cfg = false ∧
    State.reset.handle.distinct = true := by decide

theorem witness_ClearSetAllClear :
    (readyWith (bulkParams 40) [(39, 5)]).Ready ∧ (readyWith (bulkParams 40) [(39, 5)]).Safe ∧
    Memory.wf [(39, 5)] ∧ (bulkParams 40).coversDigits = true ∧ (bulkParams 64).coversDigits = true ∧ 1 ≠ 0 :=
  ⟨readyWith_isReady _ _, rfl, by simp [Memory.wf, Config.ramCells], by decide⟩

theorem witness_BurstOfOneIsTheSingleWrite :
    ready.seq = .idle ∧ (nextOf (exec (.writeAddr 63 15) ready)).isSome = true := by decide +kernel

/-- The three statuses. -/
theorem witness_CompletionStatusCauses :
    (nextOf (exec (.writeNibble 9 3 0) ready)).map State.status = some (some .ok) ∧
    (nextOf (exec (.writeNibble 9 4 0) ready)).map State.status = some (some .invalidArgument) ∧
    (nextOf (exec (.putChar 10 0) ready)).map State.status = some (some .invalidArgument) ∧
    (nextOf (exec .init { State.reset with cfgOk := false })).map State.status = some (some .configFailure) ∧
    (nextOf (exec .csAssert ready)).isSome = true := by decide +kernel

theorem witness_RequestsThatAreRefused :
    midCommand.seq ≠ .idle ∧ (midCommand.withFetchWord 32 0).port = some (.request ⟨0, [0], true⟩) ∧
    State.reset.cfg = false ∧ State.reset.seq = .idle ∧ ready.params.allowReinit = false ∧
    ({ State.reset with handle := ⟨3, 3, 4⟩ } : State).handle.distinct = false := by decide +kernel

/-- The tenth code of a string, 128. -/
theorem witness_RefusedOperands :
    (readyWith refuseParams []).seq = .idle ∧ (readyWith refuseParams []).cfg = true ∧
    refuseParams.glyphHighCodes = .refuse ∧ 127 < 128 ∧ (List.replicate 9 0x34 ++ [128])[9]? = some 128 := by decide

theorem witness_ReservedOpIsRefused : ready.seq = .idle ∧ midCommand.seq ≠ .idle := by decide

theorem witness_StatusIsNeverRead :
    isHostOperation .clear = true ∧ isHostOperation .csAssert = false ∧
    (nextOf (exec .csAssert ready)).isSome = true := by decide

theorem witness_FramesChangeOnlyTheReceiver : isFrame (.writeBurstFrame 63 [1]) = true := rfl

/-- An open bracket that has sampled WRITE 63, 9 (W5). -/
def bracketClosing : State :=
  { ready with pins := ⟨.low, .high, .high⟩, rx := ⟨[], msbFirst 0x17F9 13, true, [], false⟩ }

/-- The clock low outside a bracket, cell 9 known. -/
def midPulse : State := { readyWith testParams [(9, 1)] with pins := ⟨.high, .low, .low⟩ }

/-- One cell inside the stored addresses and one outside, for each kind of instruction. -/
theorem witness_OtherCellsAreUnchanged :
    isFrame (.write 63 1) = true ∧ 62 ∉ cellsStored ready (.write 63 1) ∧
    isHostOperation (.writeNibble 9 3 1) = true ∧ ready.pins.idle ∧ 38 ∉ cellsStored ready (.writeNibble 9 3 1) ∧
    39 ∈ cellsStored ready (.writeNibble 9 3 1) ∧ State.reset.pins = Pins.atReset ∧
    (bracketClosing.pins.cs = .low ∧ 62 ∉ cellsStored bracketClosing .csRelease ∧
      63 ∈ cellsStored bracketClosing .csRelease ∧
      (nextOf (exec .csRelease bracketClosing)).map (fun t => (t.rx.fault, t.rx.ram.read 63)) = some (false, some 9)) ∧
    (nextOf (exec .csAssert midPulse)).map (fun t => (t.rx.fault, t.rx.ram)) = some (true, [(9, 1)]) ∧
    40 ∉ cellsStored State.reset .init ∧ 39 ∈ cellsStored State.reset .init ∧
    (nextOf (exec (.writeNibble 9 3 1) ready)).map (fun t => t.rx.fault) = some false ∧
    (nextOf (exec .init State.reset)).map (fun t => t.rx.fault) = some false :=
  ⟨rfl, by decide, rfl, ⟨rfl, rfl, by decide⟩, by decide, by decide, rfl, by decide +kernel, by decide +kernel,
    by decide, by decide, by decide +kernel, by decide +kernel⟩

theorem witness_TransactionsAreBracketed :
    isHostOperation (.sendCommand 0) = true ∧
    (nextOf (exec (.sendCommand 0) ready)).map State.status = some (some .ok) := by decide +kernel

/-- One COMMAND whose events take no time but the waits. -/
theorem witness_WaitsMeetTheTiming :
    ((wireEvents (.cmd 1)).map fun e => (e, if e = .wait then 1000 else 0)).map Prod.fst =
      [Transaction.cmd 1].flatMap wireEvents ∧
    ∀ e ∈ (wireEvents (.cmd 1)).map fun e => (e, if e = .wait then 1000 else 0), e.1 = .wait → 1000 ≤ e.2 := by
  decide +kernel

/-- Each operation completes with OK at the size of the table, and a failure is there too. -/
theorem witness_EventAndWaitCounts :
    testParams.bulkNibbles = 40 ∧ State.reset.params.bulkNibbles = 40 ∧
    ([Instr.sendCommand 1, .writeNibble 9 3 1, .writeBurst 0 [1, 2], .clear, .setAll 1, .putChar 9 0x34].all fun i =>
      isHostOperation i && (nextOf (exec i ready)).map State.status == some (some .ok)) = true ∧
    (nextOf (exec (.putString [0x34]) ready)).map State.status = some (some .ok) ∧
    (nextOf (exec .init State.reset)).map State.status = some (some .ok) ∧
    (nextOf (exec (.putChar 10 0) ready)).map State.status = some (some .invalidArgument) := by decide +kernel

/-- The response codes (60_exceptions.md R210). -/
theorem test_status_codes : [Status.ok, .invalidArgument, .configFailure].map Status.code = [0, 1, 2] := rfl

end Sys2Proof.Tests
end

section
/-! The frames of 30_encoding.md section 1: their layout as one number each (R81, R82), the nine known commands (R86),
and what an observer of the lines reads of a transaction (R84). -/

namespace Sys2Proof.Machine

/-! ### Masked operands and numbers with fields -/

/-- A field of `n` bits holds an operand masked to `n` bits unchanged (30_encoding.md R85). -/
theorem toNat_ofNat_and_mask (v n : Nat) : (BitVec.ofNat n (v &&& (2 ^ n - 1))).toNat = v &&& (2 ^ n - 1) := by
  rw [BitVec.toNat_ofNat, Nat.and_two_pow_sub_one_eq_mod, Nat.mod_mod]

@[simp] theorem commandField_toNat (code : Nat) : (commandField code).toNat = code &&& 0xFF :=
  toNat_ofNat_and_mask code 8

@[simp] theorem addressField_toNat (addr : Nat) : (addressField addr).toNat = addr &&& 0x3F :=
  toNat_ofNat_and_mask addr 6

@[simp] theorem nibbleField_toNat (value : Nat) : (nibbleField value).toNat = value &&& 0x0F :=
  toNat_ofNat_and_mask value 4

/-- A field put below a number by shift and or is sent after that number's bits. -/
theorem msbFirst_shiftLeft_or (high low m n : Nat) (hlow : low < 2 ^ n) :
    msbFirst (high <<< n ||| low) (m + n) = msbFirst high m ++ msbFirst low n := by
  rw [← Nat.shiftLeft_add_eq_or_of_lt hlow, Nat.shiftLeft_eq, msbFirst_append _ _ _ _ hlow]

/-- A match word survives its mask when a field outside the mask is put beside it. -/
theorem or_field_and_mask {word mask field : Nat} (v : Nat) (hword : word &&& mask = word) (hfield : field &&& mask = 0) :
    (word ||| (v &&& field)) &&& mask = word := by
  rw [Nat.and_or_distrib_right, Nat.and_assoc, hfield, hword, Nat.and_zero, Nat.or_zero]

/-! ### COMMAND (30_encoding.md R81) -/

theorem frameBits_cmd_eq_fields (code : CommandCode) :
    (Transaction.cmd code).frameBits = msbFirst 0b100 3 ++ msbFirst code.toNat 8 := by
  rw [msbFirst_tagCommand, Transaction.frameBits]

theorem frameBits_cmd_eq_word (code : CommandCode) :
    (Transaction.cmd code).frameBits = msbFirst (0x400 ||| code.toNat) 11 := by
  rw [frameBits_cmd_eq_fields]
  exact (msbFirst_shiftLeft_or 0b100 _ 3 8 code.isLt).symm

theorem valueMsbFirst_frameBits_cmd (code : CommandCode) :
    valueMsbFirst (Transaction.cmd code).frameBits = 0x400 + code.toNat := by
  have hcode := code.isLt
  have hword : 0x400 ||| code.toNat = 0x400 + code.toNat := (Nat.two_pow_add_eq_or_of_lt hcode 4).symm
  rw [frameBits_cmd_eq_word, valueMsbFirst_msbFirst, hword, Nat.mod_eq_of_lt (by omega)]

/-- Settles O5: the tag and the masked code are the two fields of the word, and the mask keeps the tag's bits only. -/
theorem commandFrameLayout : Obligations.CommandFrameLayout := by
  unfold Obligations.CommandFrameLayout
  intro code
  refine ⟨?_, ?_, or_field_and_mask code rfl rfl⟩
  · rw [frameBits_cmd_eq_fields, commandField_toNat]
  · rw [frameBits_cmd_eq_word, commandField_toNat]

/-! ### The single WRITE (30_encoding.md R82) -/

theorem frameBits_write_single_eq_fields (addr : Address) (d : Nibble) :
    (Transaction.write addr [d]).frameBits = msbFirst 0b101 3 ++ msbFirst addr.toNat 6 ++ msbFirst d.toNat 4 := by
  rw [msbFirst_tagWrite, Transaction.frameBits, List.flatMap_singleton]

theorem frameBits_write_single_eq_word (addr : Address) (d : Nibble) :
    (Transaction.write addr [d]).frameBits = msbFirst (0x1400 ||| (addr.toNat <<< 4) ||| d.toNat) 13 := by
  have hword : 0x1400 ||| (addr.toNat <<< 4) = (0b101 <<< 6 ||| addr.toNat) <<< 4 := by
    rw [Nat.shiftLeft_or_distrib]; rfl
  rw [hword, msbFirst_shiftLeft_or _ _ 9 4 d.isLt, msbFirst_shiftLeft_or _ _ 3 6 addr.isLt,
    frameBits_write_single_eq_fields]

/-- Settles O6: the tag, the masked address and the masked value are the three fields of the word, and the mask keeps the
tag's bits only. -/
theorem singleWriteFrameLayout : Obligations.SingleWriteFrameLayout := by
  unfold Obligations.SingleWriteFrameLayout
  intro addr value
  refine ⟨?_, ?_, ?_⟩
  · rw [frameBits_write_single_eq_fields, addressField_toNat, nibbleField_toNat]
  · rw [frameBits_write_single_eq_word, addressField_toNat, nibbleField_toNat]
  · have hvalue : (value &&& 0x0F) &&& 0x1C00 = 0 := by rw [Nat.and_assoc]; exact Nat.and_zero _
    rw [Nat.and_or_distrib_right, hvalue, Nat.or_zero, Nat.shiftLeft_and_distrib]
    exact or_field_and_mask _ rfl rfl

/-! ### The known commands (30_encoding.md R86) -/

/-- A named command row is encoded as the COMMAND frame of its code. -/
theorem encode_of_namedCode {i : Instr} {code : CommandCode} (h : i.namedCode? = some code) (n : Nat) :
    encode n i = some (.frame (Transaction.cmd code).frameBits) := by
  cases i <;> cases h <;> rfl

/-- Settles O4: the nine codes are those of the table, and each row's frame is its code's COMMAND frame. -/
theorem knownCommandCodes : Obligations.KnownCommandCodes := by
  unfold Obligations.KnownCommandCodes
  refine ⟨rfl, fun n i code h => ⟨(Transaction.cmd code).frameBits, encode_of_namedCode h n, ?_, rfl, ?_⟩⟩
  · exact frameBits_cmd_length code
  · exact valueMsbFirst_frameBits_cmd code

/-! ### What an observer of the lines reads (30_encoding.md R84, 10_state.md R31) -/

/-- A bit inside an open bracket is read once, at its rising clock edge, and DATA keeps its level. -/
theorem foldl_see_bitEvents (d : Level) (current : List Bool) (finished : List (List Bool)) (b : Bool) :
    (bitEvents b).foldl Watch.see ⟨true, false, d, current, finished⟩ =
      ⟨true, false, Level.ofBool b, current ++ [b], finished⟩ := by
  cases b <;> rfl

/-- Bits inside an open bracket are read in order. -/
theorem foldl_see_bits (d : Level) (current : List Bool) (finished : List (List Bool)) (bits : List Bool) :
    (bits.flatMap bitEvents).foldl Watch.see ⟨true, false, d, current, finished⟩ =
      ⟨true, false, lastLevel d bits, current ++ bits, finished⟩ := by
  induction bits using List.reverseRecOn with
  | nil => simp
  | append_singleton bits b ih => simp [List.flatMap_append, ih, foldl_see_bitEvents]

/-- A whole transaction adds its frame to the finished bit lists, and nothing else. -/
theorem foldl_see_wireEvents (d : Level) (finished : List (List Bool)) (t : Transaction) :
    (wireEvents t).foldl Watch.see ⟨false, false, d, [], finished⟩ =
      ⟨false, false, lastLevel d t.frameBits, [], finished ++ [t.frameBits]⟩ := by
  have hopen : assertEvents.foldl Watch.see ⟨false, false, d, [], finished⟩ = ⟨true, false, d, [], finished⟩ := rfl
  rw [wireEvents, List.foldl_append, List.foldl_append, hopen, foldl_see_bits]
  rfl

theorem observedBits_wireEvents (t : Transaction) : observedBits (wireEvents t) = [t.frameBits] := by
  rw [observedBits, foldl_see_wireEvents, List.nil_append]

/-- Sending bits never moves chip-select. -/
theorem count_cs_bits (v : Bool) (bits : List Bool) : (bits.flatMap bitEvents).count (.line .cs v) = 0 := by
  refine List.count_eq_zero.mpr fun h => ?_
  obtain ⟨b, -, hb⟩ := List.mem_flatMap.mp h
  simp [bitEvents] at hb

/-- Chip-select goes each way exactly once in a transaction. -/
theorem count_cs_wireEvents (v : Bool) (t : Transaction) : (wireEvents t).count (.line .cs v) = 1 := by
  rw [wireEvents, List.count_append, List.count_append, count_cs_bits]
  cases v <;> rfl

/-- Settles O57: the wire form is the bracketed bits by definition, the observer reads one list, and its length is that of
the frame. -/
theorem bitCountsOnTheWire : Obligations.BitCountsOnTheWire := by
  unfold Obligations.BitCountsOnTheWire
  intro t
  refine ⟨rfl, observedBits_wireEvents t, count_cs_wireEvents false t, count_cs_wireEvents true t, ?_, ?_, ?_⟩
  · rintro code rfl
    exact frameBits_cmd_length code
  · rintro addr d rfl
    exact frameBits_write_length addr [d]
  · rintro addr data rfl
    exact frameBits_write_length addr data

end Sys2Proof.Machine
end

section
/-! Bit transport from any line levels (40_bit_transport.md R110, R112): what one bit's and a word's events do to the lines
and the receiver, and EMIT_WORD. -/

namespace Sys2Proof.Machine

/-! ### Bits played from any levels (20_memory.md R63; log 12) -/

/-- One bit from any levels: chip-select stays, the clock ends high, DATA holds the bit, and the receiver samples it
exactly inside an open bracket. -/
theorem wireRun_bitEvents_of_any (p : Pins) (r : Receiver) (b : Bool) :
    wireRun (p, r) (bitEvents b) =
      (⟨p.cs, .high, Level.ofBool b⟩,
        { r with bits := r.bits ++ if p.cs = .low ∧ r.isOpen = true then [b] else [] }) := by
  have hlow : Level.ofBool false = .low := rfl
  have hhigh : Level.ofBool true = .high := rfl
  by_cases h : p.cs = .low ∧ r.isOpen = true <;>
    simp [bitEvents, wireStep, Pins.set, Receiver.react, hlow, hhigh, h]

/-- Bits from any levels, in order: the receiver samples all of them or none. -/
theorem wireRun_bits_of_any (p : Pins) (r : Receiver) (bits : List Bool) :
    wireRun (p, r) (bits.flatMap bitEvents) =
      (⟨p.cs, if bits = [] then p.wr else .high, lastLevel p.data bits⟩,
        { r with bits := r.bits ++ if p.cs = .low ∧ r.isOpen = true then bits else [] }) := by
  induction bits using List.reverseRecOn with
  | nil => simp
  | append_singleton bits b ih =>
    rw [List.flatMap_append, wireRun_append, ih, List.flatMap_singleton, wireRun_bitEvents_of_any, lastLevel_concat]
    by_cases h : p.cs = .low ∧ r.isOpen = true <;> simp [h]

/-! ### Words -/

/-- The last element of an MSB-first list is the value's bit 0. -/
theorem msbFirst_succ_concat (v n : Nat) : msbFirst v (n + 1) = msbFirst (v / 2) n ++ [v.testBit 0] := by
  simp [msbFirst, List.range_succ_eq_map, Function.comp_def, Nat.testBit_add_one]

@[simp] theorem wordEvents_zero (v : Nat) : wordEvents v 0 = [] := rfl

theorem wordEvents_succ (v n : Nat) : wordEvents v (n + 1) = bitEvents (v.testBit n) ++ wordEvents v n := by
  rw [wordEvents, msbFirst_succ, List.flatMap_cons, wordEvents]

theorem wordEvents_mod (v n : Nat) : wordEvents (v % 2 ^ n) n = wordEvents v n := by
  rw [wordEvents, msbFirst_mod, wordEvents]

theorem lastLevel_msbFirst (d : Level) (v : Nat) {n : Nat} (h : 1 ≤ n) :
    lastLevel d (msbFirst v n) = Level.ofBool (v.testBit 0) := by
  obtain ⟨m, rfl⟩ := Nat.exists_eq_add_of_le' h
  rw [msbFirst_succ_concat, lastLevel_concat]

/-! ### The primitives on configured lines -/

theorem runPrimitive_of_cfg (es : List TraceElem) {s : State} (h : s.cfg = true) :
    runPrimitive es s = .next (play es s) := by
  simp [runPrimitive, h]

theorem exec_emitBit_of_cfg (level : Bool) {s : State} (h : s.cfg = true) :
    exec (.emitBit level) s = .next (play (bitEvents level) s) := runPrimitive_of_cfg _ h

theorem exec_emitWord_of_cfg (value bitCount : Nat) {s : State} (h : s.cfg = true) :
    exec (.emitWord value bitCount) s = .next (play (wordEvents value bitCount) s) := runPrimitive_of_cfg _ h

/-- The lines and the receiver after EMIT_WORD, from any levels. -/
theorem play_wordEvents (value bitCount : Nat) (s : State) :
    play (wordEvents value bitCount) s = { s with
      pins := ⟨s.pins.cs, if msbFirst value bitCount = [] then s.pins.wr else .high,
        lastLevel s.pins.data (msbFirst value bitCount)⟩
      trace := s.trace ++ (msbFirst value bitCount).flatMap bitEvents
      rx := { s.rx with
        bits := s.rx.bits ++ if s.pins.cs = .low ∧ s.rx.isOpen = true then msbFirst value bitCount else [] } } := by
  rw [play, wordEvents, wireRun_bits_of_any]

/-- Settles O20: EMIT_WORD plays its bits' events, which compose from the top bit down, and bits played from any levels
move only DATA and the clock and reach the receiver only inside an open bracket. -/
theorem emitWordIsMostSignificantBitFirst : Obligations.EmitWordIsMostSignificantBitFirst := by
  unfold Obligations.EmitWordIsMostSignificantBitFirst
  intro value bitCount s hcfg
  refine ⟨?_, ?_, ⟨play (bitEvents (value.testBit bitCount)) s, exec_emitBit_of_cfg _ hcfg, ?_⟩,
    play (wordEvents value bitCount) s, exec_emitWord_of_cfg _ _ hcfg, ?_, ?_, fun hpos => ?_, fun hcs hopen => ?_⟩
  · rw [exec_emitWord_of_cfg _ _ hcfg, wordEvents_zero, play_nil]
  · rw [exec_emitWord_of_cfg _ _ hcfg, exec_emitWord_of_cfg _ _ hcfg, wordEvents_mod]
  · rw [exec_emitWord_of_cfg _ _ hcfg, exec_emitWord_of_cfg _ _ ((play_cfg _ s).trans hcfg), wordEvents_succ, play_append]
  · rw [play_wordEvents]
  · rw [play_wordEvents]
  · rw [play_wordEvents]
    exact lastLevel_msbFirst _ value hpos
  · rw [play_wordEvents]
    simp [hcs, hopen]

end Sys2Proof.Machine
end

section
/-! Host operations admitted between requests (30_encoding.md R94, 60_exceptions.md R215), and the WRITE_NIBBLE that its
bounds reject (42_display_ram.md R152). -/

namespace Sys2Proof.Machine

/-! ### Admitted courses -/

/-- Between requests, with the lines configured, the gate lets the course run from the state itself. -/
theorem admitReady_of_idle (p : Plan) {s : State} (hseq : s.seq = .idle) (hcfg : s.cfg = true) :
    admitReady p s = .ok (s, p) := by
  rw [admitReady, if_neg (not_not_intro hseq), if_neg (by simp [hcfg])]

/-- Ending a request in a state that is already idle writes the status only. -/
theorem complete_of_idle (st : Status) {s : State} (hseq : s.seq = .idle) :
    complete st s = { s with status := some st } := by
  rw [complete, ← hseq]

/-- A failure before the first line event writes the status only: no event is played (60_exceptions.md R215). -/
theorem runPlan_raise_nil (st : Status) {s : State} (hseq : s.seq = .idle) :
    runPlan (.raise [] st) s = .next { s with status := some st } := by
  rw [runPlan, play_nil, failWith, complete_of_idle st hseq]

/-! ### WRITE_NIBBLE -/

theorem exec_writeNibble_of_idle (d n v : Nat) {s : State} (hseq : s.seq = .idle) (hcfg : s.cfg = true) :
    exec (.writeNibble d n v) s = runPlan (planWriteNibble d n v) s := by
  rw [exec_of_admission (a := admitReady (planWriteNibble d n v) s) rfl, admitReady_of_idle _ hseq hcfg, runAdmitted]

/-- Settles O31: out of bounds the course is a failure with no events, and such a failure writes the status only. -/
theorem writeNibbleOutOfBoundsTouchesNothing : Obligations.WriteNibbleOutOfBoundsTouchesNothing := by
  unfold Obligations.WriteNibbleOutOfBoundsTouchesNothing
  intro digit nibbleIndex value s hseq hcfg hbounds
  rw [exec_writeNibble_of_idle _ _ _ hseq hcfg, planWriteNibble_outOfBounds hbounds, runPlan_raise_nil _ hseq]

end Sys2Proof.Machine
end

section
/-! What the receiver makes of whole transactions on idle lines (20_memory.md R64, R65, R70): the frame decoder inverts the
frame layout, and playing transactions is sending them. -/

namespace Sys2Proof

/-! ### Decoding what was encoded (20_memory.md R65) -/

theorem ofNat_valueMsbFirst_msbFirst {w : Nat} (v : BitVec w) :
    BitVec.ofNat w (valueMsbFirst (msbFirst v.toNat w)) = v := by
  rw [valueMsbFirst_msbFirst_toNat, BitVec.ofNat_toNat, BitVec.setWidth_eq]

theorem parseFrame_frameBits_cmd (code : CommandCode) : parseFrame (Transaction.cmd code).frameBits = some (.cmd code) := by
  have htag : (Transaction.cmd code).frameBits.take 3 = tagCommand := rfl
  have hcode : bitField (Transaction.cmd code).frameBits 3 8 = valueMsbFirst (msbFirst code.toNat 8) := by
    simpa [tagCommand, Transaction.frameBits] using bitField_append tagCommand (msbFirst code.toNat 8) []
  rw [parseFrame, if_pos ⟨frameBits_cmd_length code, htag⟩, hcode, ofNat_valueMsbFirst_msbFirst]

/-- Payload group `i` of a WRITE frame lies behind the tag, the address and the groups before it. -/
theorem bitField_payload (addr : Address) (data : List Nibble) {i : Nat} (hi : i < data.length) :
    bitField (Transaction.write addr data).frameBits (9 + 4 * i) 4 = valueMsbFirst (msbFirst data[i].toNat 4) := by
  have hsplit : (Transaction.write addr data).frameBits =
      (Transaction.write addr (data.take i)).frameBits ++ msbFirst data[i].toNat 4 ++
        (data.drop (i + 1)).flatMap fun d => msbFirst d.toNat 4 := by
    conv_lhs => rw [← List.take_append_drop i data, List.drop_eq_getElem_cons hi]
    simp only [Transaction.frameBits, List.flatMap_append, List.flatMap_cons, List.append_assoc]
  have hlen : (Transaction.write addr (data.take i)).frameBits.length = 9 + 4 * i := by
    rw [frameBits_write_length, List.length_take_of_le hi.le]
  rw [hsplit, ← hlen]
  simpa using bitField_append (Transaction.write addr (data.take i)).frameBits (msbFirst data[i].toNat 4)
    ((data.drop (i + 1)).flatMap fun d => msbFirst d.toNat 4)

theorem payloadNibbles_frameBits_write (addr : Address) (data : List Nibble) :
    payloadNibbles (Transaction.write addr data).frameBits = data := by
  refine List.ext_getElem (by simp [payloadNibbles]) fun i _ hi => ?_
  simp only [payloadNibbles, List.getElem_map, List.getElem_range]
  rw [bitField_payload addr data hi, ofNat_valueMsbFirst_msbFirst]

theorem parseFrame_frameBits_write (addr : Address) {data : List Nibble} (h : data ≠ []) :
    parseFrame (Transaction.write addr data).frameBits = some (.write addr data) := by
  have hpos : 0 < data.length := List.length_pos_of_ne_nil h
  have htag : (Transaction.write addr data).frameBits.take 3 = tagWrite := rfl
  have hnotCommand : tagWrite ≠ tagCommand := by decide
  have haddr : bitField (Transaction.write addr data).frameBits 3 6 = valueMsbFirst (msbFirst addr.toNat 6) := by
    simpa [tagWrite, Transaction.frameBits] using
      bitField_append tagWrite (msbFirst addr.toNat 6) (data.flatMap fun d => msbFirst d.toNat 4)
  rw [parseFrame, htag, if_neg (fun ⟨_, htags⟩ => hnotCommand htags), frameBits_write_length,
    if_pos ⟨by omega, by omega, rfl⟩, haddr, ofNat_valueMsbFirst_msbFirst, payloadNibbles_frameBits_write]

end Sys2Proof

namespace Sys2Proof.Machine

theorem parseFrame_frameBits {t : Transaction} (h : Sendable t) : parseFrame t.frameBits = some t := by
  cases t with
  | cmd code => exact parseFrame_frameBits_cmd code
  | write addr data => exact parseFrame_frameBits_write addr h

/-- The receiver does with a frame what its transaction says (20_memory.md R65). -/
theorem Receiver.receive_frameBits {t : Transaction} (h : Sendable t) (r : Receiver) :
    r.receive t.frameBits = r.apply t := by
  rw [Receiver.receive, parseFrame_frameBits h]

/-! ### Sending transactions (20_memory.md R70) -/

theorem Receiver.applyAll_withOpen (ts : List Transaction) (r : Receiver) (o : Bool) (bits : List Bool) :
    ts.foldl (fun r t => r.apply t) { r with isOpen := o, bits := bits } =
      { ts.foldl (fun r t => r.apply t) r with isOpen := o, bits := bits } := by
  induction ts generalizing r with
  | nil => rfl
  | cons t ts ih => rw [List.foldl_cons, List.foldl_cons, Receiver.apply_withOpen, ih]

/-- Whole transactions from idle lines: the receiver gets each as it was encoded, and the lines end idle. -/
theorem wireRun_transactions {ts : List Transaction} (h : ∀ t ∈ ts, Sendable t) (d : Level) {r : Receiver} (hr : r.idle) :
    wireRun (⟨.high, .high, d⟩, r) (ts.flatMap wireEvents) =
      (⟨.high, .high, lastLevel d (ts.flatMap Transaction.frameBits)⟩,
        { ts.foldl (fun r t => r.apply t) r with isOpen := false, bits := [] }) := by
  induction ts generalizing d r with
  | nil =>
    obtain ⟨ram, bits, isOpen, log, fault⟩ := r
    obtain ⟨rfl, rfl⟩ := hr
    rfl
  | cons t ts ih =>
    obtain ⟨ht, hts⟩ := List.forall_mem_cons.mp h
    rw [List.flatMap_cons, List.flatMap_cons, List.foldl_cons, wireRun_append, wireRun_wireEvents,
      Receiver.receive_frameBits ht, ih hts _ ⟨rfl, rfl⟩, Receiver.applyAll_withOpen, lastLevel_append]

theorem play_transactions {ts : List Transaction} (h : ∀ t ∈ ts, Sendable t) {s : State} (hs : s.Ready) :
    play (ts.flatMap wireEvents) s = afterSending ts s := by
  obtain ⟨hcs, hwr, -⟩ := hs.pinsIdle
  have hpins : s.pins = ⟨.high, .high, s.pins.data⟩ :=
    congrArg₂ (Pins.mk · · s.pins.data) hcs hwr
  have hrun : wireRun (s.pins, s.rx) (ts.flatMap wireEvents) = ((afterSending ts s).pins, (afterSending ts s).rx) := by
    rw [hpins]
    exact wireRun_transactions h s.pins.data hs.rxIdle
  rw [play, hrun]
  rfl

end Sys2Proof.Machine
end

section
/-! PUT_CHAR (43_glyph_text.md R173, R174): what it sends, what the four cells then hold, and how the cells join to the
glyph mask. -/

namespace Sys2Proof.Machine

/-! ### What PUT_CHAR sends (R173) -/

theorem sendable_of_mem_charTransactions {p : Params} {d ch : Nat} {t : Transaction} (h : t ∈ charTransactions p d ch) :
    Sendable t := by
  obtain ⟨i, -, rfl⟩ := List.mem_map.mp h
  exact List.cons_ne_nil _ _

theorem exec_putChar_of_ready {d ch : Nat} {s : State} (hs : s.Ready) (hd : d < 10)
    (hch : s.params.glyphHighCodes = .refuse → ch ≤ 127) :
    exec (.putChar d ch) s = .next (complete .ok (afterSending (charTransactions s.params d ch) s)) := by
  have htaken : highCodeRefused s.params ch = false := by
    rw [Bool.eq_false_iff, Ne, highCodeRefused_iff]
    rintro ⟨hrefuse, hhigh⟩
    exact absurd (hch hrefuse) (by omega)
  rw [exec_of_admission (a := admitReady (planPutChar s.params d ch) s) rfl,
    admitReady_of_idle _ hs.seqIdle hs.configured, runAdmitted, planPutChar_eq htaken hd, runPlan,
    play_transactions (fun _ => sendable_of_mem_charTransactions) hs]

/-! ### The cells it fills -/

/-- A single WRITE never passes address 63. -/
@[simp] theorem Receiver.apply_write_single_fault (addr : Address) (v : Nibble) (r : Receiver) :
    (r.apply (.write addr [v])).fault = r.fault := by
  have haddr : addr.toNat + 1 ≤ Config.ramCells := addr.isLt
  rw [Receiver.apply, Receiver.writeData_fault]
  simp [haddr]

theorem Receiver.read_apply_write_single (addr : Address) (v : Nibble) (r : Receiver) (a : Nat) :
    (r.apply (.write addr [v])).ram.read a = if a = addr.toNat then some v else r.ram.read a := by
  have haddr : addr.toNat + [v].length ≤ Config.ramCells := addr.isLt
  rw [Receiver.apply, Receiver.read_writeData haddr]
  by_cases ha : a = addr.toNat
  · simp [ha]
  · rw [if_neg ha, if_neg (by rw [List.length_singleton]; omega)]

/-- The address field holds the address of every digit's cell (20_memory.md R51). -/
theorem addressField_digitAddress_toNat {d i : Nat} (hd : d < 10) (hi : i < 4) :
    (addressField (digitAddress d i)).toNat = 4 * d + i := by
  rw [addressField_toNat, digitAddress, Nat.and_two_pow_sub_one_eq_mod _ 6, Nat.mod_eq_of_lt (by omega)]

@[simp] theorem Receiver.applyAll_charTransactions_fault (p : Params) (d ch : Nat) (r : Receiver) :
    ((charTransactions p d ch).foldl (fun r t => r.apply t) r).fault = r.fault := by
  simp [charTransactions]

/-- The four WRITEs of a PUT_CHAR go to four different cells, so each keeps its own nibble. -/
theorem Receiver.read_applyAll_charTransactions (p : Params) {d i : Nat} (ch : Nat) (r : Receiver) (hd : d < 10)
    (hi : i < 4) :
    ((charTransactions p d ch).foldl (fun r t => r.apply t) r).ram.read (4 * d + i) =
      some (nibbleField (maskNibble (glyphRead p ch) i)) := by
  simp (disch := omega) only [charTransactions, List.map_cons, List.map_nil, List.foldl_cons, List.foldl_nil,
    Receiver.read_apply_write_single, addressField_digitAddress_toNat, Nat.add_left_cancel_iff]
  interval_cases i <;> rfl

/-! ### The cells, joined (R174) -/

theorem nibbleField_maskNibble (m : Mask) (i : Nat) : nibbleField (maskNibble m i) = m.extractLsb' (4 * i) 4 := by
  refine BitVec.eq_of_toNat_eq ?_
  rw [nibbleField_toNat, maskNibble, Nat.and_two_pow_sub_one_eq_mod _ 4, Nat.mod_eq_of_lt (BitVec.isLt _)]

/-- A mask is its four nibbles, low nibble first: each bit lies in exactly one of them. -/
theorem mask_eq_join_nibbles (m : Mask) :
    (m.extractLsb' 0 4).setWidth 16 ||| ((m.extractLsb' 4 4).setWidth 16 <<< 4) |||
      ((m.extractLsb' 8 4).setWidth 16 <<< 8) ||| ((m.extractLsb' 12 4).setWidth 16 <<< 12) = m := by
  refine BitVec.eq_of_getLsbD_eq fun k hk => ?_
  interval_cases k <;> simp

/-- Settles O35: the four cells hold the mask's four nibbles, and these joined are the mask. -/
theorem putCharRoundTrip : Obligations.PutCharRoundTrip := by
  unfold Obligations.PutCharRoundTrip
  intro digit ch s hready hsafe hdigit hch
  have hd : digit < 10 := by omega
  have hcell (i : Nat) (hi : i < 4) :
      (complete .ok (afterSending (charTransactions s.params digit ch) s)).rx.ram.read (4 * digit + i) =
        some ((glyphRead s.params ch).extractLsb' (4 * i) 4) := by
    rw [← nibbleField_maskNibble]
    exact Receiver.read_applyAll_charTransactions s.params ch s.rx hd hi
  refine ⟨_, _, _, _, _, exec_putChar_of_ready hready hd hch, ?_, hcell 0 (by decide), hcell 1 (by decide),
    hcell 2 (by decide), hcell 3 (by decide), mask_eq_join_nibbles _⟩
  rw [State.Safe, complete_rx, afterSending_rx, Receiver.applyAll_charTransactions_fault]
  exact hsafe

end Sys2Proof.Machine
end

section
/-! Both encodings, decoded (30_encoding.md, 20_memory.md section 7): a decoded transaction is its frame, and decoding
inverts encoding. -/

namespace Sys2Proof

/-! ### Bit lists and the fields read from them (20_memory.md R65) -/

/-- A field read from a bit list is sent as the bits it was read from. -/
theorem msbFirst_ofNat_valueMsbFirst {w : Nat} {bits : List Bool} (h : bits.length = w) :
    msbFirst (BitVec.ofNat w (valueMsbFirst bits)).toNat w = bits := by
  subst h
  rw [BitVec.toNat_ofNat, msbFirst_mod, msbFirst_valueMsbFirst]

theorem msbFirst_ofNat_bitField {bits : List Bool} {start width : Nat} (h : start + width ≤ bits.length) :
    msbFirst (BitVec.ofNat width (bitField bits start width)).toNat width = (bits.drop start).take width :=
  msbFirst_ofNat_valueMsbFirst (by simp; omega)

/-- Groups of four bits, joined again. -/
theorem flatMap_range_take_four {α : Type} {xs : List α} {n : Nat} (h : xs.length = 4 * n) :
    ((List.range n).flatMap fun i => (xs.drop (4 * i)).take 4) = xs := by
  induction n generalizing xs with
  | zero => exact (List.length_eq_zero_iff.mp h).symm
  | succ n ih =>
    have hrest : (xs.drop 4).length = 4 * n := by simp; omega
    rw [List.range_succ_eq_map, List.flatMap_cons, List.flatMap_map]
    conv_rhs => rw [← List.take_append_drop 4 xs, ← ih hrest]
    simp [Nat.mul_add, Nat.add_comm]

theorem flatMap_payloadNibbles {bits : List Bool} (hlen : 9 ≤ bits.length) (hmod : (bits.length - 9) % 4 = 0) :
    ((payloadNibbles bits).flatMap fun d => msbFirst d.toNat 4) = bits.drop 9 := by
  obtain ⟨n, hn⟩ : ∃ n, bits.length - 9 = 4 * n := ⟨(bits.length - 9) / 4, by omega⟩
  have hgroups : (bits.length - 9) / 4 = n := by omega
  rw [payloadNibbles, hgroups, List.flatMap_map]
  refine Eq.trans ?_ (flatMap_range_take_four (xs := bits.drop 9) (n := n) (by simpa using hn))
  refine List.flatMap_congr fun i hi => ?_
  have hi : i < n := List.mem_range.mp hi
  rw [msbFirst_ofNat_bitField (by omega), List.drop_drop]

/-- Only the frame of a transaction is read as that transaction. -/
theorem eq_frameBits_of_parseFrame {bits : List Bool} {t : Transaction} (h : parseFrame bits = some t) :
    bits = t.frameBits := by
  unfold parseFrame at h
  split at h
  · rename_i hcmd
    obtain ⟨hlen, htag⟩ := hcmd
    cases h
    rw [Transaction.frameBits, msbFirst_ofNat_bitField (by omega), ← htag,
      List.take_of_length_le (i := 8) (by simp [hlen]), List.take_append_drop]
  split at h
  · rename_i hwrite
    obtain ⟨hlen, hmod, htag⟩ := hwrite
    cases h
    rw [Transaction.frameBits, msbFirst_ofNat_bitField (by omega), flatMap_payloadNibbles (by omega) hmod, ← htag,
      ← List.take_add, List.take_append_drop]
  · cases h

/-- Settles O2: the two layouts are decoded by their lengths, tags and fields. -/
theorem receiverRecoversEveryFrame : Obligations.ReceiverRecoversEveryFrame := by
  unfold Obligations.ReceiverRecoversEveryFrame
  exact ⟨parseFrame_frameBits_cmd, fun addr _ hdata => parseFrame_frameBits_write addr hdata⟩

/-- Settles O3: the fields read from a bit list of either layout are sent as the same bits. -/
theorem receivedBitsAreTheFrame : Obligations.ReceivedBitsAreTheFrame := by
  unfold Obligations.ReceivedBitsAreTheFrame
  exact fun _ _ => eq_frameBits_of_parseFrame

/-! ### Wire frames (30_encoding.md section 1) -/

theorem decodeFrame_of_parseFrame {bits : List Bool} {t : Transaction} (h : parseFrame bits = some t) :
    decodeFrame bits = .ok t.instr := by
  rw [decodeFrame, h]

theorem decodeFrame_cmd (code : CommandCode) :
    decodeFrame (Transaction.cmd code).frameBits = .ok (commandInstr code) :=
  decodeFrame_of_parseFrame (parseFrame_frameBits_cmd code)

theorem decodeFrame_write (addr : Address) {data : List Nibble} (h : data ≠ []) :
    decodeFrame (Transaction.write addr data).frameBits = .ok (writeInstr addr data) :=
  decodeFrame_of_parseFrame (parseFrame_frameBits_write addr h)

theorem parseFrame_of_hasReservedTag {bits : List Bool} (h : hasReservedTag bits = true) : parseFrame bits = none := by
  simp only [hasReservedTag, Bool.and_eq_true, bne_iff_ne] at h
  obtain ⟨⟨-, hcmd⟩, hwrite⟩ := h
  rw [parseFrame, if_neg (fun hc => hcmd hc.2), if_neg (fun hw => hwrite hw.2.2)]

theorem decodeFrame_of_hasReservedTag {bits : List Bool} (h : hasReservedTag bits = true) :
    decodeFrame bits = .ok (.reservedTag bits) := by
  rw [decodeFrame, parseFrame_of_hasReservedTag h]
  exact if_pos h

/-! ### Request words (30_encoding.md R92 to R94) -/

@[simp] theorem requestOp_requestWord {n op a0 a1 a2 : Nat} (hop : op < 16) (h0 : a0 < 2 ^ n) (h1 : a1 < 2 ^ n)
    (h2 : a2 < 2 ^ n) : requestOp n (requestWord n op a0 a1 a2) = op :=
  (requestFields_requestWord hop h0 h1 h2).1

@[simp] theorem requestA0_requestWord {n op a0 a1 a2 : Nat} (hop : op < 16) (h0 : a0 < 2 ^ n) (h1 : a1 < 2 ^ n)
    (h2 : a2 < 2 ^ n) : requestA0 n (requestWord n op a0 a1 a2) = a0 :=
  (requestFields_requestWord hop h0 h1 h2).2.1

@[simp] theorem requestA1_requestWord {n op a0 a1 a2 : Nat} (hop : op < 16) (h0 : a0 < 2 ^ n) (h1 : a1 < 2 ^ n)
    (h2 : a2 < 2 ^ n) : requestA1 n (requestWord n op a0 a1 a2) = a1 :=
  (requestFields_requestWord hop h0 h1 h2).2.2.1

@[simp] theorem requestA2_requestWord {n op a0 a1 a2 : Nat} (hop : op < 16) (h0 : a0 < 2 ^ n) (h1 : a1 < 2 ^ n)
    (h2 : a2 < 2 ^ n) : requestA2 n (requestWord n op a0 a1 a2) = a2 :=
  (requestFields_requestWord hop h0 h1 h2).2.2.2

theorem decodeRequest_reserved {n op : Nat} {word : RequestWord} (list : List Nat) (hlow : 8 ≤ op)
    (hop : requestOp n word = op) : decodeRequest n word list = .reservedOp op := by
  obtain ⟨k, rfl⟩ := Nat.exists_eq_add_of_le' hlow
  rw [decodeRequest, hop]
  rfl

/-- Every request but a primitive's or a frame's is decoded from its own word (30_encoding.md R93). -/
theorem decodeRequest_of_encode {n : Nat} {i : Instr} {word : RequestWord} {list : List Nat}
    (hwf : i.wellFormed n = true) (h : encode n i = some (.request word list)) : decodeRequest n word list = i := by
  have hzero : 0 < 2 ^ n := Nat.two_pow_pos n
  cases i with
  | init | clear =>
    cases h
    simp [decodeRequest, hzero]
  | sendCommand _ | setAll _ | writeNibble _ _ _ | putChar _ _  =>
    cases h
    simp only [Instr.wellFormed, Bool.and_eq_true, operandFits_iff] at hwf
    simp [decodeRequest, hzero, hwf]
  | writeBurst a ns =>
    cases h
    simp only [Instr.wellFormed, Bool.and_eq_true, operandFits_iff] at hwf
    simp [decodeRequest, hzero, hwf, listOperand_fit]
  | putString text =>
    cases h
    simp [decodeRequest, hzero, listOperand_fit hwf]
  | reservedOp op =>
    cases h
    simp only [Instr.wellFormed, decide_eq_true_iff] at hwf
    exact decodeRequest_reserved _ hwf.1 (by simp [hzero, hwf])
  | _ => simp [encode] at h

/-! ### Decoding what was encoded -/

/-- The frame of a wire-frame row is decoded as the row's canonical spelling (log 10). -/
theorem decodeFrame_of_encode {n : Nat} {i : Instr} {bits : List Bool} (hwf : i.wellFormed n = true)
    (h : encode n i = some (.frame bits)) : decodeFrame bits = .ok i.canonical := by
  cases i with
  | command code => cases h; exact decodeFrame_cmd code
  | write addr data => cases h; exact decodeFrame_write addr (by simp)
  | writeBurstFrame addr data =>
    cases h
    exact decodeFrame_write addr (by simpa [Instr.wellFormed] using hwf)
  | reservedTag bits => cases h; exact decodeFrame_of_hasReservedTag hwf
  | cmdSysDis | cmdSysEn | cmdLcdOff | cmdLcdOn | cmdToneOff | cmdRc32k | cmdExt32k | cmdIrqDis | cmdTimebase1hz =>
    cases h
    exact decodeFrame_cmd _
  | _ => simp [encode] at h

theorem canonical_of_encode_request {n : Nat} {i : Instr} {word : RequestWord} {list : List Nat}
    (h : encode n i = some (.request word list)) : i.canonical = i := by
  cases i with
  | command _ | writeBurstFrame _ _ => cases h
  | _ => rfl

theorem decode_of_encode {n : Nat} {i : Instr} {c : Code} (hwf : i.wellFormed n = true) (h : encode n i = some c) :
    decode n c = .ok i.canonical := by
  cases c with
  | frame bits => exact decodeFrame_of_encode hwf h
  | request word list =>
    rw [canonical_of_encode_request h]
    exact congrArg Except.ok (decodeRequest_of_encode hwf h)

end Sys2Proof

namespace Sys2Proof.Machine

/-- Exactly the primitives have no encoding (30_encoding.md R95). -/
theorem encode_isSome (n : Nat) (i : Instr) : (encode n i).isSome = !isPrimitive i := by
  cases i <;> rfl

/-! ### The meaning of a frame row (20_memory.md R65) -/

theorem exec_commandInstr (code : CommandCode) (s : State) :
    exec (commandInstr code) s = runReceiver (Receiver.command code) s := by
  unfold commandInstr
  iterate 9
    split
    · subst_vars; rfl
  rfl

/-- The row a transaction is decoded to means what the receiver does with the transaction. -/
theorem exec_transactionInstr (t : Transaction) (s : State) : exec t.instr s = runReceiver (Receiver.apply t) s := by
  cases t with
  | cmd code => exact exec_commandInstr code s
  | write addr data => rcases data with - | ⟨d, - | ⟨e, rest⟩⟩ <;> rfl

/-- The two spellings of an overlapping row have one meaning (log 10). -/
theorem exec_canonical (i : Instr) (s : State) : exec i.canonical s = exec i s := by
  cases i with
  | command code => exact exec_transactionInstr (.cmd code) s
  | writeBurstFrame addr data => exact exec_transactionInstr (.write addr data) s
  | _ => rfl

/-- Settles O1: a frame is decoded by the receiver's decoder, a request word by its fields, and the canonical spelling
has the same meaning. -/
theorem decodeOfEncodeIsTheRow : Obligations.DecodeOfEncodeIsTheRow := by
  unfold Obligations.DecodeOfEncodeIsTheRow
  intro n i hwf
  have hencoded := encode_isSome n i
  refine ⟨fun hprim => ?_, fun hprim => ?_, exec_canonical i⟩
  · simpa [hprim] using hencoded
  · obtain ⟨c, hc⟩ := Option.isSome_iff_exists.mp (hencoded.trans (by rw [hprim]; rfl))
    exact ⟨c, hc, decode_of_encode hwf hc⟩

/-- Settles O7: each word is decoded by evaluation. -/
theorem sampleWordsDecode : Obligations.SampleWordsDecode := by
  unfold Obligations.SampleWordsDecode
  decide

end Sys2Proof.Machine
end

section
/-! The courses of the host operations, by their transactions: which transactions each sends, and what its events do to
the lines and the receiver (30_encoding.md R97, R98, 20_memory.md R70). -/

namespace Sys2Proof.Machine

/-! ### Transactions, told from their bits -/

theorem sendable_iff_length (t : Transaction) : Sendable t ↔ t.frameBits.length ≠ 9 := by
  cases t with
  | cmd code => simp [Sendable]
  | write addr data => simp [Sendable]

/-- An observer of whole transactions reads their frames and nothing else (20_memory.md R70). -/
theorem foldl_see_transactions (ts : List Transaction) (d : Level) (finished : List (List Bool)) :
    ((ts.flatMap wireEvents).foldl Watch.see ⟨false, false, d, [], finished⟩).finished =
      finished ++ ts.map Transaction.frameBits := by
  induction ts generalizing d finished with
  | nil => simp
  | cons t ts ih => simp [foldl_see_wireEvents, ih]

theorem observedBits_transactions (ts : List Transaction) :
    observedBits (ts.flatMap wireEvents) = ts.map Transaction.frameBits :=
  foldl_see_transactions ts .undriven []

/-! ### The transactions of each operation -/

/-- The transactions of a host operation that runs; none for the other rows. -/
def courseTransactions (p : Params) : Instr → List Transaction
  | .init => initTransactions p
  | .sendCommand code => [.cmd (commandField code)]
  | .writeNibble digit nibbleIndex value =>
    [.write (addressField (digitAddress digit nibbleIndex)) [nibbleField value]]
  | .writeBurst startAddr nibbles => [.write (addressField startAddr) (nibbles.map nibbleField)]
  | .setAll on => [bulkTransaction p (if on ≠ 0 then 0xF else 0x0)]
  | .clear => [bulkTransaction p 0x0]
  | .putChar digit ch => charTransactions p digit ch
  | .putString text => stringTransactions p text
  | .command _ | .write _ _ | .writeBurstFrame _ _ | .reservedTag _ | .cmdSysDis | .cmdSysEn | .cmdLcdOff | .cmdLcdOn
  | .cmdToneOff | .cmdRc32k | .cmdExt32k | .cmdIrqDis | .cmdTimebase1hz | .reservedOp _ | .emitBit _ | .emitWord _ _
  | .csAssert | .csRelease | .writeAddr _ _ => []

/-- The events of an operation's course: for INIT the idle levels, then its transactions. -/
def courseEvents (p : Params) (i : Instr) : List TraceElem :=
  (if i = .init then idleEvents else []) ++ (courseTransactions p i).flatMap wireEvents

theorem courseEvents_init (p : Params) :
    courseEvents p .init = idleEvents ++ (courseTransactions p .init).flatMap wireEvents := rfl

theorem courseEvents_of_ne_init (p : Params) {i : Instr} (h : i ≠ .init) :
    courseEvents p i = (courseTransactions p i).flatMap wireEvents := by
  simp [courseEvents, h]

/-- When each operation's course runs; otherwise it is refused or fails (41_frame_encoder.md R135, 42_display_ram.md R152,
43_glyph_text.md R170). -/
def CourseRuns (p : Params) : Instr → Prop
  | .init | .setAll _ | .clear => p.bulkNibbles ≠ 0
  | .sendCommand _ => True
  | .writeNibble digit nibbleIndex _ => digit < 10 ∧ nibbleIndex < 4
  | .writeBurst _ nibbles => nibbles ≠ []
  | .putChar digit ch => highCodeRefused p ch = false ∧ digit < 10
  | .putString text => ∀ k, k < 10 → highCodeRefused p (stringChar text k) = false
  | .command _ | .write _ _ | .writeBurstFrame _ _ | .reservedTag _ | .cmdSysDis | .cmdSysEn | .cmdLcdOff | .cmdLcdOn
  | .cmdToneOff | .cmdRc32k | .cmdExt32k | .cmdIrqDis | .cmdTimebase1hz | .reservedOp _ | .emitBit _ | .emitWord _ _
  | .csAssert | .csRelease | .writeAddr _ _ => False

theorem isHostOperation_of_courseRuns {p : Params} {i : Instr} (h : CourseRuns p i) : isHostOperation i = true := by
  cases i with
  | init | sendCommand _ | writeNibble _ _ _ | writeBurst _ _ | setAll _ | clear | putChar _ _ | putString _ => rfl
  | _ => exact h.elim

theorem busyPlan_of_courseRuns {p : Params} {i : Instr} (h : CourseRuns p i) :
    busyPlan? p i = some (.run (courseEvents p i)) := by
  cases i with
  | init => exact congrArg some (planInit_eq h)
  | sendCommand code =>
    exact congrArg some ((planSendCommand_eq code).trans (by simp [courseEvents, courseTransactions]))
  | writeNibble d n v =>
    exact congrArg some ((planWriteNibble_inBounds h.1 h.2 v).trans (by simp [courseEvents, courseTransactions]))
  | writeBurst a ns => exact congrArg some ((planWriteBurst_eq h).trans (by simp [courseEvents, courseTransactions]))
  | setAll on => exact congrArg some ((planSetAll_eq h on).trans (by simp [courseEvents, courseTransactions]))
  | clear => exact congrArg some ((planClear_eq h).trans (by simp [courseEvents, courseTransactions]))
  | putChar d ch => exact congrArg some (planPutChar_eq h.1 h.2)
  | putString text => exact congrArg some (planPutString_eq h)
  | _ => exact h.elim

theorem courseRuns_of_busyPlan {p : Params} {i : Instr} {es : List TraceElem} (h : busyPlan? p i = some (.run es)) :
    CourseRuns p i := by
  cases i with
  | init =>
    intro hb
    rw [busyPlan?, planInit_none hb] at h; cases h
  | sendCommand code => trivial
  | writeNibble d n v =>
    by_contra hb
    rw [CourseRuns] at hb
    rw [busyPlan?, planWriteNibble_outOfBounds (by omega)] at h; cases h
  | writeBurst a ns =>
    rintro rfl
    cases h
  | setAll on =>
    intro hb
    rw [busyPlan?, planSetAll_none hb] at h; cases h
  | clear =>
    intro hb
    rw [busyPlan?, planClear_none hb] at h; cases h
  | putChar d ch =>
    have htaken : highCodeRefused p ch = false := by
      by_contra hr
      rw [busyPlan?, planPutChar_refused (by simpa using hr)] at h; cases h
    refine ⟨htaken, Nat.lt_of_not_le fun hd => ?_⟩
    rw [busyPlan?, planPutChar_badDigit htaken hd] at h; cases h
  | putString text =>
    intro k hk
    by_contra hr
    rw [busyPlan?, planPutString_refused hk (by simpa using hr)] at h; cases h
  | _ => cases h

/-- The course that a busy sequencer follows is the operation's own. -/
theorem eq_courseEvents_of_busyPlan {p : Params} {i : Instr} {es : List TraceElem}
    (h : busyPlan? p i = some (.run es)) : es = courseEvents p i := by
  have hcourse := busyPlan_of_courseRuns (courseRuns_of_busyPlan h)
  rw [h] at hcourse
  simpa using hcourse

/-- The operation's transactions are whole frames, at least one (20_memory.md R70). -/
theorem courseTransactions_sendable {p : Params} {i : Instr} (h : CourseRuns p i) :
    courseTransactions p i ≠ [] ∧ ∀ t ∈ courseTransactions p i, Sendable t := by
  obtain ⟨ts, hne, hsend, hes⟩ := course_of_busyPlan (busyPlan_of_courseRuns h)
  have hframes : (courseTransactions p i).map Transaction.frameBits = ts.map Transaction.frameBits := by
    rw [← observedBits_transactions, ← observedBits_transactions, List.append_cancel_left hes]
  refine ⟨fun hnil => hne ?_, fun t ht => ?_⟩
  · simpa [hnil] using hframes.symm
  · have hmem := List.mem_map_of_mem (f := Transaction.frameBits) ht
    rw [hframes] at hmem
    obtain ⟨t', ht', hbits⟩ := List.mem_map.mp hmem
    rw [sendable_iff_length, ← hbits, ← sendable_iff_length]
    exact hsend t' ht'

/-! ### What a course does to the lines and the receiver -/

/-- `wireRun_transactions` also from a receiver that is not idle: the first `(CS, 0)` begins a new transaction. -/
theorem wireRun_transactions_of_ne {ts : List Transaction} (hne : ts ≠ []) (h : ∀ t ∈ ts, Sendable t) (d : Level)
    (r : Receiver) :
    wireRun (⟨.high, .high, d⟩, r) (ts.flatMap wireEvents) =
      (⟨.high, .high, lastLevel d (ts.flatMap Transaction.frameBits)⟩,
        { ts.foldl (fun r t => r.apply t) r with isOpen := false, bits := [] }) := by
  obtain ⟨t, ts, rfl⟩ := List.exists_cons_of_ne_nil hne
  obtain ⟨ht, hts⟩ := List.forall_mem_cons.mp h
  rw [List.flatMap_cons, List.flatMap_cons, List.foldl_cons, wireRun_append, wireRun_wireEvents,
    Receiver.receive_frameBits ht, wireRun_transactions hts _ ⟨rfl, rfl⟩, Receiver.applyAll_withOpen, lastLevel_append]

theorem Pins.eq_of_idle {p : Pins} (h : p.idle) : p = ⟨.high, .high, p.data⟩ := by
  obtain ⟨hcs, hwr, -⟩ := h
  exact congrArg₂ (Pins.mk · · p.data) hcs hwr

/-- The lines an operation's course starts from: idle, or for INIT also not yet driven (10_state.md R24, R34). -/
def StartLines (i : Instr) (p : Pins) : Prop := p.idle ∨ i = .init ∧ p = Pins.atReset

/-- A whole course: the receiver gets each transaction as it was encoded, and the lines end idle. -/
theorem wireRun_courseEvents {p : Params} {i : Instr} {w : Pins × Receiver} (h : CourseRuns p i)
    (hw : StartLines i w.1) :
    wireRun w (courseEvents p i) =
      (⟨.high, .high, lastLevel (if i = .init then .low else w.1.data)
          ((courseTransactions p i).flatMap Transaction.frameBits)⟩,
        { (courseTransactions p i).foldl (fun r t => r.apply t) w.2 with isOpen := false, bits := [] }) := by
  obtain ⟨hne, hsend⟩ := courseTransactions_sendable h
  obtain ⟨pins, r⟩ := w
  by_cases hi : i = .init
  · subst hi
    have hpins : pins = Pins.atReset ∨ pins.idle := hw.elim .inr fun h => .inl h.2
    rw [courseEvents_init, wireRun_append, wireRun_idleEvents r hpins, wireRun_transactions_of_ne hne hsend, if_pos rfl]
  · have hpins : pins.idle := hw.resolve_right fun h => hi h.1
    rw [courseEvents_of_ne_init p hi, if_neg hi, Pins.eq_of_idle hpins, wireRun_transactions_of_ne hne hsend]

theorem lastLevel_ne_undriven {d : Level} (hd : d ≠ .undriven) (bits : List Bool) : lastLevel d bits ≠ .undriven := by
  rw [lastLevel]
  split
  · exact Level.ofBool_ne_undriven _
  · exact hd

/-- A whole course leaves the lines and the receiver idle. -/
theorem wireRun_courseEvents_idle {p : Params} {i : Instr} {w : Pins × Receiver} (h : CourseRuns p i)
    (hw : StartLines i w.1) :
    (wireRun w (courseEvents p i)).1.idle ∧ (wireRun w (courseEvents p i)).2.idle := by
  have hdata : (if i = .init then Level.low else w.1.data) ≠ .undriven := by
    split
    · decide
    · rename_i hi
      obtain ⟨-, -, hdata⟩ := hw.resolve_right fun h => hi h.1
      exact hdata
  rw [wireRun_courseEvents h hw]
  exact ⟨⟨rfl, rfl, lastLevel_ne_undriven hdata _⟩, rfl, rfl⟩

theorem courseEvents_length_pos {p : Params} {i : Instr} (h : CourseRuns p i) : 0 < (courseEvents p i).length := by
  obtain ⟨t, ts, hts⟩ := List.exists_cons_of_ne_nil (courseTransactions_sendable h).1
  simp [courseEvents, hts, wireEvents, assertEvents]

end Sys2Proof.Machine
end

section
/-! What an instruction and a step can do, said once: the frames, the primitives, the host operations, and the step
around them (10_state.md R27, 30_encoding.md R90 to R95). -/

namespace Sys2Proof.Machine

/-! ### Instructions by group -/

/-- Every row is a host operation, a primitive, a wire frame or RESERVED_OP (30_encoding.md R93 to R95). -/
theorem instr_groups (i : Instr) :
    isHostOperation i = true ∨ isPrimitive i = true ∨ isFrame i = true ∨ ∃ op, i = .reservedOp op := by
  cases i with
  | init | sendCommand _ | writeNibble _ _ _ | writeBurst _ _ | setAll _ | clear | putChar _ _ | putString _ =>
    exact .inl rfl
  | emitBit _ | emitWord _ _ | csAssert | csRelease | writeAddr _ _ => exact .inr (.inl rfl)
  | reservedOp op => exact .inr (.inr (.inr ⟨op, rfl⟩))
  | _ => exact .inr (.inr (.inl rfl))

/-- The events of a primitive (40_bit_transport.md, 41_frame_encoder.md R132). -/
def primitiveEvents : Instr → List TraceElem
  | .emitBit level => bitEvents level
  | .emitWord value bitCount => wordEvents value bitCount
  | .csAssert => assertEvents
  | .csRelease => releaseEvents
  | .writeAddr addr value => writeAddrEvents addr value
  | .command _ | .write _ _ | .writeBurstFrame _ _ | .reservedTag _ | .cmdSysDis | .cmdSysEn | .cmdLcdOff | .cmdLcdOn
  | .cmdToneOff | .cmdRc32k | .cmdExt32k | .cmdIrqDis | .cmdTimebase1hz | .init | .sendCommand _ | .writeNibble _ _ _
  | .writeBurst _ _ | .setAll _ | .clear | .putChar _ _ | .putString _ | .reservedOp _ => []

theorem exec_of_isPrimitive {i : Instr} (h : isPrimitive i = true) (s : State) :
    exec i s = runPrimitive (primitiveEvents i) s := by
  cases i with
  | emitBit _ | emitWord _ _ | csAssert | csRelease | writeAddr _ _ => rfl
  | _ => cases h

theorem exec_of_namedCode {i : Instr} {code : CommandCode} (h : i.namedCode? = some code) (s : State) :
    exec i s = runReceiver (Receiver.command code) s := by
  cases i <;> cases h <;> rfl

/-- The transaction a wire frame carries; none for a reserved tag (30_encoding.md R81 to R87). -/
def frameTransaction? : Instr → Option Transaction
  | .command code => some (.cmd code)
  | .write addr data => some (.write addr [data])
  | .writeBurstFrame addr data => some (.write addr data)
  | i => i.namedCode?.map .cmd

/-- What a wire frame does to the receiver (20_memory.md R65, R67). -/
def frameEffect (i : Instr) (r : Receiver) : Receiver := (frameTransaction? i).elim r.forget fun t => r.apply t

theorem exec_of_isFrame {i : Instr} (h : isFrame i = true) (s : State) :
    exec i s = .next { s with rx := frameEffect i s.rx } := by
  cases i with
  | command _ | write _ _ | writeBurstFrame _ _ | reservedTag _ | cmdSysDis | cmdSysEn | cmdLcdOff | cmdLcdOn
  | cmdToneOff | cmdRc32k | cmdExt32k | cmdIrqDis | cmdTimebase1hz => rfl
  | _ => cases h

/-- A wire frame is received as its transaction, or forgotten. -/
theorem frameEffect_cases (i : Instr) (r : Receiver) :
    (∃ t, frameTransaction? i = some t ∧ frameEffect i r = r.apply t) ∨ frameEffect i r = r.forget := by
  rw [frameEffect]
  cases frameTransaction? i with
  | some t => exact .inl ⟨t, rfl, rfl⟩
  | none => exact .inr rfl

/-- RESERVED_OP is refused in every state (30_encoding.md R94). -/
theorem exec_reservedOp (op : Nat) (s : State) :
    exec (.reservedOp op) s = .refused (if s.seq ≠ .idle then .busy else .reservedOp) :=
  (apply_ite _ _ _ _).symm

theorem primitive_next {i : Instr} {s t : State} (hi : isPrimitive i = true) (h : exec i s = .next t) :
    s.cfg = true ∧ t = play (primitiveEvents i) s := by
  rw [exec_of_isPrimitive hi, runPrimitive] at h
  split at h
  · cases h
  · rename_i hcfg
    cases h
    exact ⟨by simpa using hcfg, rfl⟩

/-- What an instruction that has a next state is and, unless it is a host operation, what it has done. -/
theorem exec_next_cases {i : Instr} {s t : State} (h : exec i s = .next t) :
    isHostOperation i = true ∨
    (isPrimitive i = true ∧ s.cfg = true ∧ t = play (primitiveEvents i) s) ∨
    (isFrame i = true ∧ t = { s with rx := frameEffect i s.rx }) := by
  rcases instr_groups i with hi | hi | hi | ⟨op, rfl⟩
  · exact .inl hi
  · exact .inr (.inl ⟨hi, primitive_next hi h⟩)
  · rw [exec_of_isFrame hi] at h
    cases h
    exact .inr (.inr ⟨hi, rfl⟩)
  · rw [exec_reservedOp] at h
    cases h

/-! ### Host operations -/

/-- The state an admitted operation's course starts from: its own, or for INIT the one with the lines configured
(30_encoding.md R94, 44_device_lifecycle.md R192). -/
def StartsFrom (i : Instr) (s u : State) : Prop :=
  (i ≠ .init ∧ s.cfg = true ∧ u = s) ∨ (i = .init ∧ s.cfgOk = true ∧ u = configureLines s)

theorem StartsFrom.eq {i : Instr} {s u : State} (h : StartsFrom i s u) :
    u = { s with cfg := true, cfgLines := u.cfgLines } := by
  rcases h with ⟨-, hcfg, rfl⟩ | ⟨-, -, rfl⟩
  · rw [← hcfg]
  · rfl

theorem StartsFrom.cfg {i : Instr} {s u : State} (h : StartsFrom i s u) : u.cfg = true := by rw [h.eq]
theorem StartsFrom.pins {i : Instr} {s u : State} (h : StartsFrom i s u) : u.pins = s.pins := by rw [h.eq]
theorem StartsFrom.rx {i : Instr} {s u : State} (h : StartsFrom i s u) : u.rx = s.rx := by rw [h.eq]
theorem StartsFrom.trace {i : Instr} {s u : State} (h : StartsFrom i s u) : u.trace = s.trace := by rw [h.eq]
theorem StartsFrom.params {i : Instr} {s u : State} (h : StartsFrom i s u) : u.params = s.params := by rw [h.eq]
theorem StartsFrom.handle {i : Instr} {s u : State} (h : StartsFrom i s u) : u.handle = s.handle := by rw [h.eq]
theorem StartsFrom.grain {i : Instr} {s u : State} (h : StartsFrom i s u) : u.grain = s.grain := by rw [h.eq]
theorem StartsFrom.port {i : Instr} {s u : State} (h : StartsFrom i s u) : u.port = s.port := by rw [h.eq]

/-- The operands that end an operation with InvalidArgument (42_display_ram.md R152, 43_glyph_text.md). -/
def OutOfBounds (i : Instr) : Prop :=
  (∃ d n v, i = .writeNibble d n v ∧ (10 ≤ d ∨ 4 ≤ n)) ∨ (∃ d ch, i = .putChar d ch ∧ 10 ≤ d)

theorem OutOfBounds.ne_init {i : Instr} (h : OutOfBounds i) : i ≠ .init := by
  rcases h with ⟨_, _, _, rfl, -⟩ | ⟨_, _, rfl, -⟩ <;> simp

theorem OutOfBounds.not_courseRuns {i : Instr} (h : OutOfBounds i) (p : Params) : ¬ CourseRuns p i := by
  rcases h with ⟨d, n, v, rfl, hb⟩ | ⟨d, ch, rfl, hd⟩
  · rintro ⟨hd, hn⟩; omega
  · rintro ⟨-, hd'⟩; omega

/-- The ends of a host operation: OK after its course; InvalidArgument on its bounds, or INIT's ConfigFailure, before
any event (60_exceptions.md R211, R215). -/
inductive Ended (i : Instr) (s : State) : State → Prop where
  | ok (u : State) (runs : CourseRuns s.params i) (starts : StartsFrom i s u) :
    Ended i s (complete .ok (play (courseEvents s.params i) u))
  | outOfBounds (hcfg : s.cfg = true) (bounds : OutOfBounds i) : Ended i s (failWith .invalidArgument s)
  | rejected (hinit : i = .init) (first : s.cfg = false ∨ s.params.allowReinit = true) (answer : s.cfgOk = false) :
    Ended i s (failWith .configFailure (rejectLines s))

theorem exec_init_already {s : State} (hseq : s.seq = .idle) (hcfg : s.cfg = true)
    (hreinit : s.params.allowReinit = false) : exec .init s = .refused .alreadyInitialised := by
  rw [exec_of_admission (a := admitInit s) rfl, admitInit, if_neg (not_not_intro hseq), if_pos ⟨hcfg, hreinit⟩,
    runAdmitted]

/-- Everything a host operation that has a next state can have done. -/
theorem exec_ended {i : Instr} {s t : State} (hi : isHostOperation i = true) (h : exec i s = .next t) :
    s.seq = .idle ∧ Ended i s t := by
  obtain ⟨hseq, hcases⟩ := hostOperation_cases hi h
  refine ⟨hseq, ?_⟩
  rcases hcases with ⟨es, u, hplan, hstart, rfl⟩ | ⟨-, hcfg, hplan, rfl⟩ | ⟨rfl, hok, rfl⟩
  · obtain rfl := eq_courseEvents_of_busyPlan hplan
    exact .ok u (courseRuns_of_busyPlan hplan) hstart
  · obtain ⟨-, -, hbounds⟩ := raise_of_busyPlan hplan
    exact .outOfBounds hcfg hbounds
  · refine .rejected rfl ?_ hok
    by_contra hfirst
    rw [not_or, Bool.not_eq_false, Bool.not_eq_true] at hfirst
    rw [exec_init_already hseq hfirst.1 hfirst.2] at h
    cases h

/-! ### The step around the instructions -/

/-- The request a step takes, at the port or the host's next, and the state it is run in (30_encoding.md R90, R91). -/
def Takes (s : State) (r : Request) (u : State) : Prop :=
  (s.port = some (.request r) ∧ u = { s with port := none, cfgOk := r.cfgOk }) ∨
  (s.port = none ∧ s.seq = .idle ∧ ∃ rs, s.script = r :: rs ∧ u = { s with script := rs, cfgOk := r.cfgOk })

theorem Takes.eq {s u : State} {r : Request} (h : Takes s r u) :
    u = { s with port := none, script := u.script, cfgOk := r.cfgOk } := by
  rcases h with ⟨-, rfl⟩ | ⟨hport, -, _, -, rfl⟩
  · rfl
  · rw [← hport]

theorem Takes.pins {s u : State} {r : Request} (h : Takes s r u) : u.pins = s.pins := by rw [h.eq]
theorem Takes.rx {s u : State} {r : Request} (h : Takes s r u) : u.rx = s.rx := by rw [h.eq]
theorem Takes.trace {s u : State} {r : Request} (h : Takes s r u) : u.trace = s.trace := by rw [h.eq]
theorem Takes.params {s u : State} {r : Request} (h : Takes s r u) : u.params = s.params := by rw [h.eq]
theorem Takes.seq {s u : State} {r : Request} (h : Takes s r u) : u.seq = s.seq := by rw [h.eq]
theorem Takes.cfg {s u : State} {r : Request} (h : Takes s r u) : u.cfg = s.cfg := by rw [h.eq]
theorem Takes.handle {s u : State} {r : Request} (h : Takes s r u) : u.handle = s.handle := by rw [h.eq]
theorem Takes.grain {s u : State} {r : Request} (h : Takes s r u) : u.grain = s.grain := by rw [h.eq]
theorem Takes.port {s u : State} {r : Request} (h : Takes s r u) : u.port = none := by rw [h.eq]
theorem Takes.cfgOk {s u : State} {r : Request} (h : Takes s r u) : u.cfgOk = r.cfgOk := by rw [h.eq]

/-- The instruction a request word stands for at a block's port. -/
def State.requested (s : State) (r : Request) : Instr := decodeRequest s.params.operandBits r.word r.list

theorem step_of_takes {s u : State} {r : Request} (h : Takes s r u) : step s = launch (s.requested r) u := by
  rcases h with ⟨hport, rfl⟩ | ⟨hport, hseq, rs, hscript, rfl⟩
  · rw [step, hport]
    rfl
  · simp only [step, hport, runOn, hseq, hscript]
    rfl

/-- A bit list that arrives is received like any closed transaction (20_memory.md R65, R67; log 9). -/
theorem runArrival_frame (bits : List Bool) (s : State) :
    runArrival (.frame bits) s = .next { s with rx := s.rx.receive bits } := by
  rw [runArrival, Receiver.receive, decodeFrame]
  cases parseFrame bits with
  | some t => exact exec_transactionInstr t s
  | none =>
    by_cases htag : hasReservedTag bits = true
    · simp only [htag, if_true]; rfl
    · simp only [htag]; split_ifs <;> rfl

theorem step_of_frame {s : State} {bits : List Bool} (h : s.port = some (.frame bits)) :
    step s = .next { s with port := none, rx := s.rx.receive bits } := by
  rw [step, h]
  exact runArrival_frame bits _

theorem step_of_busy {s : State} {op : Instr} {k : Nat} (hport : s.port = none) (hseq : s.seq = .busy op k) :
    step s = advance op k s := by
  rw [step, hport, runOn, hseq]

theorem step_of_nothing {s : State} (hport : s.port = none) (hseq : s.seq = .idle) (hscript : s.script = []) :
    step s = .next s := by
  rw [step, hport, runOn, hseq, hscript]

/-- Every request word is a host operation or RESERVED_OP (30_encoding.md R93, R94). -/
theorem decodeRequest_group (n : Nat) (word : RequestWord) (list : List Nat) :
    isHostOperation (decodeRequest n word list) = true ∨ ∃ op, decodeRequest n word list = .reservedOp op := by
  unfold decodeRequest
  split <;> simp [isHostOperation]

/-! ### Launching (92_eei_decisions.md D31) -/

theorem launch_at_operation {i : Instr} {s : State} (h : s.grain = .operation) : launch i s = exec i s := by
  rw [launch, h]

theorem launch_at_event {i : Instr} {s : State} {a : Admission} (h : s.grain = .event) (ha : admission? i s = some a) :
    launch i s = beginOperation i a := by
  rw [launch, h]
  simp only [ha]

theorem launch_reservedOp (op : Nat) (s : State) : launch (.reservedOp op) s = exec (.reservedOp op) s := by
  rw [launch]
  split <;> rfl

/-- What an admitted course that runs starts from. -/
theorem startsFrom_of_admission {i : Instr} {s u : State} {es : List TraceElem}
    (h : admission? i s = some (.ok (u, .run es))) :
    s.seq = .idle ∧ StartsFrom i s u ∧ busyPlan? s.params i = some (.run es) := by
  obtain ⟨hseq, ⟨hni, hcfg, rfl, hp⟩ | ⟨rfl, hok, rfl, hp⟩ | ⟨-, -, -, hp⟩⟩ := admission_ok h
  · exact ⟨hseq, .inl ⟨hni, hcfg, rfl⟩, hp⟩
  · exact ⟨hseq, .inr ⟨rfl, hok, rfl⟩, hp⟩
  · cases hp

/-- A launched host operation has run, or has begun its course. -/
theorem launch_cases {i : Instr} {s t : State} (hi : isHostOperation i = true) (h : launch i s = .next t) :
    exec i s = .next t ∨
    ∃ u, s.seq = .idle ∧ CourseRuns s.params i ∧ StartsFrom i s u ∧ t = { u with seq := .busy i 0 } := by
  obtain ⟨a, ha⟩ := Option.isSome_iff_exists.mp ((admission_isSome i s).trans hi)
  cases hg : s.grain with
  | operation => exact .inl ((launch_at_operation hg).symm.trans h)
  | event =>
    rw [launch_at_event hg ha] at h
    rcases a with r | ⟨u, es | ⟨es, st⟩ | r⟩
    · cases h
    · cases h
      obtain ⟨hseq, hstarts, hplan⟩ := startsFrom_of_admission ha
      exact .inr ⟨u, hseq, courseRuns_of_busyPlan hplan, hstarts, rfl⟩
    · exact .inl ((exec_of_admission ha).trans h)
    · cases h

/-! ### What one step can have done -/

/-- The steps that have a next state, at either grain. -/
inductive Stepped (s : State) : State → Prop where
  /-- nothing at the port and nothing to do -/
  | waited : Stepped s s
  /-- a closed transaction from outside the driver -/
  | received (bits : List Bool) (hport : s.port = some (.frame bits)) :
    Stepped s { s with port := none, rx := s.rx.receive bits }
  /-- a whole host operation, or one that failed at its gate -/
  | ran (r : Request) (u t : State) (takes : Takes s r u) (hi : isHostOperation (s.requested r) = true)
    (hexec : exec (s.requested r) u = .next t) : Stepped s t
  /-- a host operation accepted, at event grain -/
  | began (r : Request) (u v : State) (takes : Takes s r u) (hseq : s.seq = .idle)
    (runs : CourseRuns s.params (s.requested r)) (starts : StartsFrom (s.requested r) u v) :
    Stepped s { v with seq := .busy (s.requested r) 0 }
  /-- the next event of the operation in progress -/
  | advanced (op : Instr) (k : Nat) (e : TraceElem) (hseq : s.seq = .busy op k) (runs : CourseRuns s.params op)
    (he : (courseEvents s.params op)[k]? = some e) (hlt : k + 1 < (courseEvents s.params op).length) :
    Stepped s { play [e] s with seq := .busy op (k + 1) }
  /-- the last event of the operation in progress -/
  | finished (op : Instr) (k : Nat) (e : TraceElem) (hseq : s.seq = .busy op k) (runs : CourseRuns s.params op)
    (he : (courseEvents s.params op)[k]? = some e) (hlast : k + 1 = (courseEvents s.params op).length) :
    Stepped s (complete .ok (play [e] s))
  /-- an operation past its course, which no run reaches (log 24) -/
  | overran (op : Instr) (k : Nat) (hseq : s.seq = .busy op k) (hpast : (courseEvents s.params op).length ≤ k) :
    Stepped s (complete .ok s)

theorem stepped_of_advance {s t : State} {op : Instr} {k : Nat} (hseq : s.seq = .busy op k)
    (h : advance op k s = .next t) : Stepped s t := by
  unfold advance at h
  split at h
  · rename_i es hplan
    obtain rfl := eq_courseEvents_of_busyPlan hplan
    have hruns := courseRuns_of_busyPlan hplan
    split at h
    · rename_i e he
      obtain ⟨hk, -⟩ := List.getElem?_eq_some_iff.mp he
      split at h
      · rename_i hlt
        cases h
        exact .advanced op k e hseq hruns he hlt
      · cases h
        exact .finished op k e hseq hruns he (by omega)
    · rename_i hnone
      cases h
      exact .overran op k hseq (List.getElem?_eq_none_iff.mp hnone)
  all_goals cases h

theorem stepped_of_takes {s t u : State} {r : Request} (htakes : Takes s r u) (h : launch (s.requested r) u = .next t) :
    Stepped s t := by
  rcases decodeRequest_group s.params.operandBits r.word r.list with hi | ⟨op, hop⟩
  · rcases launch_cases hi h with hexec | ⟨v, hseq, hruns, hstarts, rfl⟩
    · exact .ran r u t htakes hi hexec
    · exact .began r u v htakes (htakes.seq ▸ hseq) (htakes.params ▸ hruns) hstarts
  · rw [State.requested, hop, launch_reservedOp, exec_reservedOp] at h
    cases h

/-- A step that has a next state is one of these. -/
theorem stepped_of_step {s t : State} (h : step s = .next t) : Stepped s t := by
  cases hport : s.port with
  | some a =>
    cases a with
    | request r =>
      have htakes : Takes s r _ := .inl ⟨hport, rfl⟩
      exact stepped_of_takes htakes ((step_of_takes htakes).symm.trans h)
    | frame bits =>
      rw [step_of_frame hport] at h
      cases h
      exact .received bits hport
  | none =>
    cases hseq : s.seq with
    | busy op k => exact stepped_of_advance hseq ((step_of_busy hport hseq).symm.trans h)
    | idle =>
      cases hscript : s.script with
      | nil =>
        rw [step_of_nothing hport hseq hscript] at h
        cases h
        exact .waited
      | cons r rs =>
        have htakes : Takes s r _ := .inr ⟨hport, hseq, rs, hscript, rfl⟩
        exact stepped_of_takes htakes ((step_of_takes htakes).symm.trans h)

end Sys2Proof.Machine
end

section
/-! What every step keeps: the invariant (10_state.md R24, R26, R27), and the lines and the receiver as the trace leaves
them (R31, R32). -/

namespace Sys2Proof.Machine

/-! ### The invariant (10_state.md R24 to R27) -/

/-- Settles O12: at reset nothing is driven, known or running. -/
theorem resetMeetsTheInvariant : Obligations.ResetMeetsTheInvariant where
  ramWf := Memory.wf_nil
  linesDistinct := rfl
  unconfigured := fun _ => ⟨rfl, rfl, rfl, rfl, rfl⟩
  idleLines := fun hcfg => nomatch hcfg
  busyInside := fun _ _ hseq => nomatch hseq
  linesConfigured := fun hcfg => nomatch hcfg

/-- A request taken from the port or the script touches nothing the invariant speaks of. -/
theorem State.Inv.of_takes {s u : State} {r : Request} (h : Takes s r u) (hs : s.Inv) : u.Inv := by
  rw [h.eq]
  exact ⟨hs.ramWf, hs.linesDistinct, hs.unconfigured, hs.idleLines, hs.busyInside, hs.linesConfigured⟩

/-- Between requests every admitted course starts from its start lines and an idle receiver. -/
theorem State.Inv.startLines {s u : State} {i : Instr} (hs : s.Inv) (hseq : s.seq = .idle) (h : StartsFrom i s u) :
    StartLines i s.pins ∧ s.rx.idle := by
  cases hcfg : s.cfg with
  | true =>
    obtain ⟨hpins, hrx⟩ := hs.idleLines hcfg hseq
    exact ⟨.inl hpins, hrx⟩
  | false =>
    obtain ⟨hpins, -, -, hrx⟩ := hs.unconfigured hcfg
    rcases h with ⟨-, hcfg', -⟩ | ⟨hi, -, -⟩
    · simp [hcfg] at hcfg'
    · exact ⟨.inr ⟨hi, hpins⟩, hrx⟩

/-- Where a second INIT is not allowed, a started course has its lines configured. -/
theorem State.Inv.linesConfigured_of_starts {s u : State} {i : Instr} (hs : s.Inv) (h : StartsFrom i s u)
    (hreinit : s.params.allowReinit = false) : u.cfgLines = ⟨.configured, .configured, .configured⟩ := by
  rcases h with ⟨-, hcfg, rfl⟩ | ⟨-, -, rfl⟩
  · exact hs.linesConfigured hcfg hreinit
  · rfl

/-- A configured, idle state with idle lines, a canonical RAM and a handle meets the invariant. -/
theorem State.Inv.of_idle {s : State} (hram : s.rx.ram.wf) (hhandle : s.handle.distinct = true) (hcfg : s.cfg = true)
    (hseq : s.seq = .idle) (hlines : s.pins.idle ∧ s.rx.idle)
    (hconfigured : s.params.allowReinit = false → s.cfgLines = ⟨.configured, .configured, .configured⟩) : s.Inv where
  ramWf := hram
  linesDistinct := hhandle
  unconfigured := fun h => by simp [hcfg] at h
  idleLines := fun _ _ => hlines
  busyInside := fun _ _ h => by simp [hseq] at h
  linesConfigured := fun _ => hconfigured

theorem exec_keeps_inv {i : Instr} {s t : State} (hi : isHostOperation i = true) (hs : s.Inv)
    (h : exec i s = .next t) : t.Inv := by
  obtain ⟨hseq, hended⟩ := exec_ended hi h
  cases hended with
  | ok u runs starts =>
    have hlines := wireRun_courseEvents_idle (w := (s.pins, s.rx)) runs (hs.startLines hseq starts).1
    rw [← starts.pins, ← starts.rx] at hlines
    refine .of_idle (wireRun_wf _ ?_) ?_ starts.cfg rfl hlines fun hreinit => ?_
    · rw [starts.rx]; exact hs.ramWf
    · exact (congrArg Handle.distinct starts.handle).trans hs.linesDistinct
    · exact hs.linesConfigured_of_starts (u := u) starts (by simpa [starts.params] using hreinit)
  | outOfBounds hcfg _ =>
    exact .of_idle hs.ramWf hs.linesDistinct hcfg rfl (hs.idleLines hcfg hseq) (hs.linesConfigured hcfg)
  | rejected _ first _ =>
    refine ⟨hs.ramWf, hs.linesDistinct, fun hcfg => ?_, fun hcfg _ => hs.idleLines hcfg hseq,
      (fun _ _ h => nomatch h), ?_⟩
    · obtain ⟨hpins, -, htrace, hrx⟩ := hs.unconfigured hcfg
      exact ⟨hpins, rfl, htrace, hrx⟩
    · intro hcfg hreinit
      rcases first with hfirst | hfirst
      · exact absurd (hcfg.symm.trans hfirst) (by decide)
      · exact absurd (hreinit.symm.trans hfirst) (by decide)

/-- An event of a course moves the lines and the open transaction to where the course has them after that event. -/
theorem MidOperation.play_next {op : Instr} {es : List TraceElem} {k : Nat} {e : TraceElem} {s : State}
    (h : MidOperation op es k s) (he : es[k]? = some e) : MidOperation op es (k + 1) (play [e] s) := by
  obtain ⟨w, hpins, hrx, hmid, hopen, hbits⟩ := h
  have htake : es.take (k + 1) = es.take k ++ [e] := by rw [List.take_add_one, he]; rfl
  obtain ⟨hpins', hopen', hbits'⟩ :=
    wireRun_open [e] (v := wireRun w (es.take k)) (w := (s.pins, s.rx)) hmid hopen hbits
  refine ⟨w, hpins, hrx, ?_⟩
  rw [htake, wireRun_append]
  exact ⟨hpins', hopen', hbits'⟩

/-- At the end of a course the lines and the receiver are idle. -/
theorem MidOperation.idle_of_all {op : Instr} {p : Params} {k : Nat} {s : State} (hruns : CourseRuns p op)
    (h : MidOperation op (courseEvents p op) k s) (hk : k = (courseEvents p op).length) : s.pins.idle ∧ s.rx.idle := by
  obtain ⟨w, hpins, -, hmid, hopen, hbits⟩ := h
  rw [hk, List.take_length] at hmid hopen hbits
  obtain ⟨hpins', hopen', hbits'⟩ := wireRun_courseEvents_idle hruns hpins
  exact ⟨hmid ▸ hpins', hopen.symm.trans hopen', hbits.symm.trans hbits'⟩

/-- Where a busy sequencer stands (10_state.md R27). -/
theorem State.Inv.midOperation {s : State} {op : Instr} {k : Nat} (hs : s.Inv) (hseq : s.seq = .busy op k) :
    s.cfg = true ∧ k < (courseEvents s.params op).length ∧ MidOperation op (courseEvents s.params op) k s := by
  obtain ⟨hcfg, es, hplan, hk, hmid⟩ := hs.busyInside op k hseq
  obtain rfl := eq_courseEvents_of_busyPlan hplan
  exact ⟨hcfg, hk, hmid⟩

/-- A state inside a running operation's course meets the invariant. -/
theorem State.Inv.of_busy {s : State} {op : Instr} {k : Nat} (hram : s.rx.ram.wf) (hhandle : s.handle.distinct = true)
    (hcfg : s.cfg = true) (hseq : s.seq = .busy op k) (hruns : CourseRuns s.params op)
    (hk : k < (courseEvents s.params op).length) (hmid : MidOperation op (courseEvents s.params op) k s)
    (hconfigured : s.params.allowReinit = false → s.cfgLines = ⟨.configured, .configured, .configured⟩) : s.Inv where
  ramWf := hram
  linesDistinct := hhandle
  unconfigured := fun h => by simp [hcfg] at h
  idleLines := fun _ h => by simp [hseq] at h
  busyInside := fun op' k' h => by
    rw [hseq] at h
    cases h
    exact ⟨hcfg, _, busyPlan_of_courseRuns hruns, hk, hmid⟩
  linesConfigured := fun _ => hconfigured

/-- A closed transaction from outside the driver leaves the lines and the open transaction. -/
theorem State.Inv.of_received {s : State} (hs : s.Inv) (bits : List Bool) :
    ({ s with port := none, rx := s.rx.receive bits } : State).Inv := by
  have hopen := Receiver.receive_isOpen bits s.rx
  have hbits := Receiver.receive_bits bits s.rx
  have hidle : s.rx.idle → (s.rx.receive bits).idle := fun ⟨ho, hb⟩ => ⟨hopen.trans ho, hbits.trans hb⟩
  refine ⟨Receiver.receive_wf bits hs.ramWf, hs.linesDistinct, fun hcfg => ?_, fun hcfg hseq => ?_,
    fun op k hseq => ?_, hs.linesConfigured⟩
  · obtain ⟨hpins, hseq, htrace, hrx⟩ := hs.unconfigured hcfg
    exact ⟨hpins, hseq, htrace, hidle hrx⟩
  · obtain ⟨hpins, hrx⟩ := hs.idleLines hcfg hseq
    exact ⟨hpins, hidle hrx⟩
  · obtain ⟨hcfg, es, hplan, hk, w, hpins, hrx, hmid, ho, hb⟩ := hs.busyInside op k hseq
    exact ⟨hcfg, es, hplan, hk, w, hpins, hrx, hmid, ho.trans hopen.symm, hb.trans hbits.symm⟩

/-- A host operation accepted at event grain stands at the start of its course. -/
theorem State.Inv.of_begun {s u : State} {i : Instr} (hs : s.Inv) (hseq : s.seq = .idle) (runs : CourseRuns s.params i)
    (starts : StartsFrom i s u) : ({ u with seq := .busy i 0 } : State).Inv := by
  obtain ⟨hpins, hrx⟩ := hs.startLines hseq starts
  rw [← starts.pins] at hpins
  rw [← starts.rx] at hrx
  refine .of_busy (op := i) (k := 0) ?_ ?_ starts.cfg rfl (by rwa [starts.params])
    (courseEvents_length_pos (by rwa [starts.params])) ⟨(u.pins, u.rx), hpins, hrx, rfl, rfl, rfl⟩ fun hreinit => ?_
  · rw [starts.rx]; exact hs.ramWf
  · rw [starts.handle]; exact hs.linesDistinct
  · exact hs.linesConfigured_of_starts (u := u) starts (by rwa [← starts.params])

/-- Settles O13: a request's own end keeps it, a begun course stands at its start, each event moves on inside the
course, and the last one ends on idle lines. -/
theorem everyStepKeepsTheInvariant : Obligations.EveryStepKeepsTheInvariant := by
  unfold Obligations.EveryStepKeepsTheInvariant
  intro s t hs hstep
  cases stepped_of_step hstep with
  | waited => exact hs
  | received bits hport => exact hs.of_received bits
  | ran r u _ takes hi hexec => exact exec_keeps_inv hi (hs.of_takes takes) hexec
  | began r u v takes hseq runs starts =>
    exact (hs.of_takes takes).of_begun (takes.seq.trans hseq) (takes.params.symm ▸ runs) starts
  | advanced op k e hseq runs he hlt =>
    obtain ⟨hcfg, -, hmid⟩ := hs.midOperation hseq
    obtain ⟨w, hw⟩ := hmid.play_next he
    exact .of_busy (wireRun_wf [e] hs.ramWf) hs.linesDistinct hcfg rfl runs hlt ⟨w, hw⟩ (hs.linesConfigured hcfg)
  | finished op k e hseq runs he hlast =>
    obtain ⟨hcfg, -, hmid⟩ := hs.midOperation hseq
    exact .of_idle (wireRun_wf [e] hs.ramWf) hs.linesDistinct hcfg rfl ((hmid.play_next he).idle_of_all runs hlast)
      (hs.linesConfigured hcfg)
  | overran op k hseq hpast =>
    obtain ⟨-, hk, -⟩ := hs.midOperation hseq
    omega

/-! ### What is played is what is traced (20_memory.md R61, 10_state.md R31) -/

/-- The trace grew by some elements, which the lines and the receiver have followed. -/
def Played (s t : State) : Prop :=
  ∃ es, t.trace = s.trace ++ es ∧ (t.pins, t.rx) = wireRun (s.pins, s.rx) es

theorem Played.refl (s : State) : Played s s := ⟨[], by simp, rfl⟩

theorem Played.play (es : List TraceElem) (s : State) : Played s (play es s) := ⟨es, rfl, rfl⟩

theorem Played.fault {s t : State} (h : Played s t) (hfault : s.rx.fault = true) : t.rx.fault = true := by
  obtain ⟨es, -, hwire⟩ := h
  have hrx : t.rx = (wireRun (s.pins, s.rx) es).2 := congrArg Prod.snd hwire
  rw [hrx]
  exact wireRun_fault_of es hfault

theorem played_of_hostOperation {i : Instr} {s t : State} (hi : isHostOperation i = true) (h : exec i s = .next t) :
    Played s t := by
  obtain ⟨-, hended⟩ := exec_ended hi h
  cases hended with
  | ok u _ starts =>
    refine ⟨courseEvents s.params i, ?_, ?_⟩
    · rw [complete_trace, play_trace, starts.trace]
    · rw [complete_pins, complete_rx, play_pins, play_rx, starts.pins, starts.rx]
  | outOfBounds => exact .refl s
  | rejected => exact .refl s

/-- Every step plays what it adds to the trace, unless a transaction arrives from outside the driver. -/
theorem played_of_step {s t : State} (hport : ∀ bits, s.port ≠ some (.frame bits)) (h : step s = .next t) :
    Played s t := by
  cases stepped_of_step h with
  | waited => exact .refl s
  | received bits hbits => exact absurd hbits (hport bits)
  | ran r u _ takes hi hexec =>
    obtain ⟨es, htrace, hwire⟩ := played_of_hostOperation hi hexec
    exact ⟨es, takes.trace ▸ htrace, takes.pins ▸ takes.rx ▸ hwire⟩
  | began r u v takes _ _ starts =>
    refine ⟨[], ?_, ?_⟩
    · rw [List.append_nil, ← takes.trace, ← starts.trace]
    · rw [wireRun_nil, ← takes.pins, ← takes.rx, ← starts.pins, ← starts.rx]
  | advanced op k e => exact .play [e] s
  | finished op k e => exact .play [e] s
  | overran => exact .refl s

/-- Settles O14: what a step adds to the trace continues the play from reset. -/
theorem traceDeterminesLinesAndReceiver : Obligations.TraceDeterminesLinesAndReceiver := by
  unfold Obligations.TraceDeterminesLinesAndReceiver
  intro s t hport hs hstep
  obtain ⟨es, htrace, hwire⟩ := played_of_step hport hstep
  rw [htrace, wireRun_append, hs, ← hwire]

end Sys2Proof.Machine
end

section
/-! How the instructions end (60_exceptions.md): the statuses and their causes, the refusals, what each group of
instructions leaves unchanged. -/

namespace Sys2Proof.Machine

/-! ### Refusals (60_exceptions.md section 4) -/

theorem admission_of_ne_init {i : Instr} (hi : isHostOperation i = true) (hne : i ≠ .init) (s : State) :
    ∃ p, busyPlan? s.params i = some p ∧ admission? i s = some (admitReady p s) := by
  cases i with
  | init => exact absurd rfl hne
  | sendCommand _ | writeNibble _ _ _ | writeBurst _ _ | setAll _ | clear | putChar _ _ | putString _ =>
    exact ⟨_, rfl, rfl⟩
  | _ => cases hi

/-- The busy gate stands before all others (60_exceptions.md R225; log 19). -/
theorem admission_of_not_idle {i : Instr} {s : State} (hi : isHostOperation i = true) (hseq : s.seq ≠ .idle) :
    admission? i s = some (.error .busy) := by
  by_cases hne : i = .init
  · subst hne
    rw [admission?, admitInit, if_pos hseq]
  · obtain ⟨p, -, ha⟩ := admission_of_ne_init hi hne s
    rw [ha, admitReady, if_pos hseq]

theorem exec_of_not_idle {i : Instr} {s : State} (hi : isHostOperation i = true) (hseq : s.seq ≠ .idle) :
    exec i s = .refused .busy :=
  exec_of_admission (admission_of_not_idle hi hseq)

theorem launch_of_not_idle {i : Instr} {s : State} (hi : isHostOperation i = true) (hseq : s.seq ≠ .idle) :
    launch i s = .refused .busy := by
  cases hgrain : s.grain with
  | operation => rw [launch_at_operation hgrain, exec_of_not_idle hi hseq]
  | event => rw [launch_at_event hgrain (admission_of_not_idle hi hseq), beginOperation]

theorem exec_of_not_cfg {i : Instr} {s : State} (hi : isHostOperation i = true) (hne : i ≠ .init) (hseq : s.seq = .idle)
    (hcfg : s.cfg = false) : exec i s = .refused .notInitialised := by
  obtain ⟨p, -, ha⟩ := admission_of_ne_init hi hne s
  rw [exec_of_admission ha, admitReady, if_neg (not_not_intro hseq), if_pos hcfg, runAdmitted]

/-- Between requests, with the lines configured, a host operation but INIT follows its course. -/
theorem exec_eq_runPlan {i : Instr} {s : State} {p : Plan} (hi : isHostOperation i = true) (hne : i ≠ .init)
    (hseq : s.seq = .idle) (hcfg : s.cfg = true) (hplan : busyPlan? s.params i = some p) : exec i s = runPlan p s := by
  obtain ⟨q, hq, ha⟩ := admission_of_ne_init hi hne s
  cases hq.symm.trans hplan
  rw [exec_of_admission ha, admitReady_of_idle _ hseq hcfg, runAdmitted]

/-- INIT's gates, passed up to the handle's (44_device_lifecycle.md R190, R197). -/
theorem admitInit_of_first {s : State} (hseq : s.seq = .idle) (hfirst : s.cfg = false ∨ s.params.allowReinit = true) :
    admitInit s =
      if s.handle.distinct = false then .error .linesNotDistinct
      else if s.cfgOk = false then .ok (rejectLines s, .raise [] .configFailure)
      else .ok (configureLines s, planInit s.params) := by
  have hgate : ¬ (s.cfg = true ∧ s.params.allowReinit = false) := by
    rintro ⟨hcfg, hreinit⟩
    simp [hcfg, hreinit] at hfirst
  rw [admitInit, if_neg (not_not_intro hseq), if_neg hgate]

theorem exec_init_of_not_distinct {s : State} (hseq : s.seq = .idle)
    (hfirst : s.cfg = false ∨ s.params.allowReinit = true) (hhandle : s.handle.distinct = false) :
    exec .init s = .refused .linesNotDistinct := by
  rw [exec_of_admission (a := admitInit s) rfl, admitInit_of_first hseq hfirst, if_pos hhandle, runAdmitted]

/-- Settles O49: each clause is one gate. -/
theorem requestsThatAreRefused : Obligations.RequestsThatAreRefused := by
  unfold Obligations.RequestsThatAreRefused
  refine ⟨fun i s => exec_of_not_idle, fun s r op k hport hseq => ?_, fun i s hi hcfg => ?_, fun i s => exec_of_not_cfg,
    fun s => exec_init_already, fun s => exec_init_of_not_distinct⟩
  · have hbusy : s.seq ≠ .idle := by simp [hseq]
    rw [step_of_takes (.inl ⟨hport, rfl⟩)]
    rcases decodeRequest_group s.params.operandBits r.word r.list with hi | ⟨op, hop⟩
    · exact launch_of_not_idle hi hbusy
    · rw [State.requested, hop, launch_reservedOp, exec_reservedOp, if_pos hbusy]
  · rw [exec_of_isPrimitive hi, runPrimitive, if_pos hcfg]

/-- Settles O51: RESERVED_OP looks at the sequencer only. -/
theorem reservedOpIsRefused : Obligations.ReservedOpIsRefused := by
  unfold Obligations.ReservedOpIsRefused
  intro op s
  rw [exec_reservedOp]
  exact ⟨fun hseq => by rw [if_neg (not_not_intro hseq)], fun hseq => by rw [if_pos hseq]⟩

/-- Settles O50: the empty burst and a code above 127 stop the course before its first event. -/
theorem refusedOperands : Obligations.RefusedOperands := by
  unfold Obligations.RefusedOperands
  refine ⟨fun startAddr s hseq hcfg => exec_eq_runPlan (p := .refuse .emptyBurst) rfl (by simp) hseq hcfg rfl,
    fun digit ch s hseq hcfg hrefuse hhigh => ?_, fun text k ch s hseq hcfg hrefuse hk hch hhigh => ?_⟩
  · have hplan : busyPlan? s.params (.putChar digit ch) = some (.refuse .codeAbove127) :=
      congrArg some (planPutChar_refused ((highCodeRefused_iff s.params ch).mpr ⟨hrefuse, hhigh⟩) digit)
    exact exec_eq_runPlan rfl (by simp) hseq hcfg hplan
  · have hchar : stringChar text k = ch := by rw [stringChar, List.getD_eq_getElem?_getD, hch]; rfl
    have hplan : busyPlan? s.params (.putString text) = some (.refuse .codeAbove127) :=
      congrArg some (planPutString_refused hk ((highCodeRefused_iff s.params _).mpr ⟨hrefuse, hchar ▸ hhigh⟩))
    exact exec_eq_runPlan rfl (by simp) hseq hcfg hplan

/-! ### Completion (60_exceptions.md sections 1, 3 and 9) -/

theorem runAdmitted_ne_fault (a : Admission) (f : Fault) : runAdmitted a ≠ .fault f := by
  rcases a with r | ⟨u, es | ⟨es, st⟩ | r⟩ <;> exact fun h => nomatch h

theorem exec_ne_fault (i : Instr) (s : State) (f : Fault) : exec i s ≠ .fault f := by
  rcases instr_groups i with hi | hi | hi | ⟨op, rfl⟩
  · obtain ⟨a, ha⟩ := Option.isSome_iff_exists.mp ((admission_isSome i s).trans hi)
    rw [exec_of_admission ha]
    exact runAdmitted_ne_fault a f
  · rw [exec_of_isPrimitive hi, runPrimitive]
    split <;> simp
  · rw [exec_of_isFrame hi]
    simp
  · rw [exec_reservedOp]
    simp

/-- What every end of a host operation leaves as it was (10_state.md R20). -/
theorem Ended.frame {i : Instr} {s t : State} (h : Ended i s t) :
    t = { s with
      pins := t.pins, trace := t.trace, rx := t.rx, status := t.status, seq := .idle
      cfg := t.cfg, cfgLines := t.cfgLines, draws := t.draws } := by
  cases h with
  | ok u _ starts =>
    rcases starts with ⟨-, -, rfl⟩ | ⟨-, -, rfl⟩ <;> rfl
  | outOfBounds => rfl
  | rejected => rfl

/-- Settles O54: the fields not named are those of the operation's start, and only INIT starts from other lines. -/
theorem hostOperationsFrame : Obligations.HostOperationsFrame := by
  unfold Obligations.HostOperationsFrame
  intro i s t hi h
  obtain ⟨-, hended⟩ := exec_ended hi h
  refine ⟨hended.frame, fun hne => ?_⟩
  cases hended with
  | ok u _ starts =>
    obtain ⟨-, hcfg, rfl⟩ := starts.resolve_right fun hinit => hne hinit.1
    exact ⟨rfl, rfl, rfl⟩
  | outOfBounds => exact ⟨rfl, rfl, rfl⟩
  | rejected hinit => exact absurd hinit hne

/-- Settles O53: admissions, events and frames end in a next state or a refusal, and every end of a host operation is
idle with a status. -/
theorem operationsRunToCompletion : Obligations.OperationsRunToCompletion := by
  unfold Obligations.OperationsRunToCompletion
  refine ⟨exec_ne_fault, fun i s t hi h => ?_⟩
  obtain ⟨-, hended⟩ := exec_ended hi h
  cases hended with
  | ok | outOfBounds | rejected => exact ⟨rfl, by simp⟩

/-- Settles O47: the three ends of a host operation exclude each other by their causes. -/
theorem completionStatusCauses : Obligations.CompletionStatusCauses := by
  unfold Obligations.CompletionStatusCauses
  intro i s t h
  refine ⟨fun hi => ?_, fun hi => ?_⟩
  · change _ ∧ (_ ↔ OutOfBounds i) ∧ _
    obtain ⟨-, hended⟩ := exec_ended hi h
    cases hended with
    | ok u runs starts =>
      have hanswer : ¬ (i = .init ∧ s.cfgOk = false) := by
        rintro ⟨rfl, hno⟩
        rcases starts with ⟨hne, -⟩ | ⟨-, hyes, -⟩
        · exact hne rfl
        · simp [hno] at hyes
      have hbounds : ¬ OutOfBounds i := fun hb => hb.not_courseRuns _ runs
      simp [hanswer, hbounds]
    | outOfBounds _ bounds => simp [bounds, bounds.ne_init]
    | rejected hinit _ answer =>
      have hbounds : ¬ OutOfBounds i := fun hb => hb.ne_init hinit
      simp [hinit ▸ hbounds, hinit, answer]
  · obtain ⟨-, rfl⟩ := primitive_next hi h
    rfl

/-- Settles O48: only a platform's rejection changes more than the status, in the records and the draw counter. -/
theorem failureLeavesNoTrace : Obligations.FailureLeavesNoTrace := by
  unfold Obligations.FailureLeavesNoTrace
  intro i s t hi h hfail
  obtain ⟨-, hended⟩ := exec_ended hi h
  cases hended with
  | ok => exact absurd rfl hfail
  | outOfBounds => exact ⟨rfl, rfl, fun _ => ⟨rfl, rfl⟩⟩
  | rejected hinit => exact ⟨rfl, rfl, fun hne => absurd hinit hne⟩

/-! ### The status is never read (10_state.md R28) -/

theorem runPlan_status (p : Plan) (s : State) (before : Option Status) :
    runPlan p { s with status := before } = runPlan p s := by
  cases p <;> rfl

theorem runAdmitted_admitReady_status (p : Plan) (s : State) (before : Option Status) :
    runAdmitted (admitReady p { s with status := before }) = runAdmitted (admitReady p s) := by
  unfold admitReady
  split_ifs
  · rfl
  · rfl
  · exact runPlan_status p s before

theorem runAdmitted_admitInit_status (s : State) (before : Option Status) :
    runAdmitted (admitInit { s with status := before }) = runAdmitted (admitInit s) := by
  unfold admitInit
  split_ifs
  · rfl
  · rfl
  · rfl
  · rfl
  · exact runPlan_status (planInit s.params) (configureLines s) before

theorem exec_host_status {i : Instr} (hi : isHostOperation i = true) (s : State) (before : Option Status) :
    exec i { s with status := before } = exec i s := by
  cases i with
  | init => exact runAdmitted_admitInit_status s before
  | sendCommand _ | writeNibble _ _ _ | writeBurst _ _ | setAll _ | clear | putChar _ _ | putString _ =>
    exact runAdmitted_admitReady_status _ s before
  | _ => cases hi

/-- Settles O52: a host operation's end overwrites the status, and the other instructions carry it along. -/
theorem statusIsNeverRead : Obligations.StatusIsNeverRead := by
  unfold Obligations.StatusIsNeverRead
  refine fun i s before => ⟨fun hi => exec_host_status hi s before, fun hnot t h => ?_⟩
  rcases exec_next_cases h with hhost | ⟨hprim, hcfg, rfl⟩ | ⟨hframe, rfl⟩
  · simp [hnot] at hhost
  · refine ⟨rfl, ?_⟩
    rw [exec_of_isPrimitive hprim]
    exact runPrimitive_of_cfg _ hcfg
  · exact ⟨rfl, exec_of_isFrame hframe _⟩

/-! ### Primitives and frames -/

/-- Settles O24: a primitive plays its events, and playing touches the lines, the trace and the receiver only. -/
theorem primitivesChangeOnlyTheWire : Obligations.PrimitivesChangeOnlyTheWire := by
  unfold Obligations.PrimitivesChangeOnlyTheWire
  intro i s hprim hcfg
  refine ⟨play (primitiveEvents i) s, ?_, rfl, primitiveEvents i, rfl⟩
  rw [exec_of_isPrimitive hprim, runPrimitive_of_cfg _ hcfg]

theorem frameEffect_open (i : Instr) (r : Receiver) :
    (frameEffect i r).isOpen = r.isOpen ∧ (frameEffect i r).bits = r.bits := by
  rcases frameEffect_cases i r with ⟨t, -, h⟩ | h <;> simp [h]

theorem frameEffect_fault_of (i : Instr) {r : Receiver} (hfault : r.fault = true) :
    (frameEffect i r).fault = true := by
  rcases frameEffect_cases i r with ⟨t, -, h⟩ | h <;> rw [h]
  · exact Receiver.apply_fault_of t hfault
  · rfl

/-- Settles O55: receiving a transaction, or forgetting, leaves the open transaction. -/
theorem framesChangeOnlyTheReceiver : Obligations.FramesChangeOnlyTheReceiver := by
  unfold Obligations.FramesChangeOnlyTheReceiver
  intro i s hframe
  exact ⟨_, exec_of_isFrame hframe s, rfl, frameEffect_open i s.rx⟩

end Sys2Proof.Machine
end

section
/-! More that every step keeps: the configuration and the history (10_state.md R26, R27), and the receiver's fault
(20_memory.md section 7), which the driver causes only by a burst past address 63. -/

namespace Sys2Proof.Machine

/-! ### Configuration and history -/

/-- Only an INIT that the platform accepts sets `cfg`, and it configures the three records
(44_device_lifecycle.md R192). -/
theorem Ended.sets_cfg {i : Instr} {s t : State} (h : Ended i s t) (hcfg : s.cfg = false) (ht : t.cfg = true) :
    i = .init ∧ s.cfgOk = true ∧ t.cfgLines = ⟨.configured, .configured, .configured⟩ := by
  cases h with
  | ok u _ starts =>
    rcases starts with ⟨-, hcfg', rfl⟩ | ⟨hi, hok, rfl⟩
    · simp [hcfg] at hcfg'
    · exact ⟨hi, hok, rfl⟩
  | outOfBounds hcfg' => simp [hcfg] at hcfg'
  | rejected => exact absurd (hcfg.symm.trans ht) (by decide)

theorem Ended.keeps_cfg {i : Instr} {s t : State} (h : Ended i s t) (hcfg : s.cfg = true) : t.cfg = true := by
  cases h with
  | ok u _ starts => exact starts.cfg
  | outOfBounds | rejected => exact hcfg

/-- Instructions but host operations do not touch `cfg`. -/
theorem exec_cfg {i : Instr} {s t : State} (hi : isHostOperation i = false) (h : exec i s = .next t) :
    t.cfg = s.cfg := by
  rcases exec_next_cases h with hhost | ⟨-, -, rfl⟩ | ⟨-, rfl⟩
  · simp [hi] at hhost
  · rfl
  · rfl

/-- The trace only grows; the handle, the parameters and the grain never change. -/
theorem step_keeps_history {s t : State} (h : step s = .next t) :
    (∃ es, t.trace = s.trace ++ es) ∧ t.handle = s.handle ∧ t.params = s.params ∧ t.grain = s.grain := by
  cases stepped_of_step h with
  | waited => exact ⟨⟨[], by simp⟩, rfl, rfl, rfl⟩
  | received bits _ => exact ⟨⟨[], by simp⟩, rfl, rfl, rfl⟩
  | ran r u _ takes hi hexec =>
    obtain ⟨es, htrace, -⟩ := played_of_hostOperation hi hexec
    have hframe := (exec_ended hi hexec).2.frame
    rw [hframe]
    exact ⟨⟨es, takes.trace ▸ htrace⟩, takes.handle, takes.params, takes.grain⟩
  | began r u v takes _ _ starts =>
    exact ⟨⟨[], by rw [List.append_nil, ← takes.trace, ← starts.trace]⟩, starts.handle.trans takes.handle,
      starts.params.trans takes.params, starts.grain.trans takes.grain⟩
  | advanced op k e => exact ⟨⟨[e], rfl⟩, rfl, rfl, rfl⟩
  | finished op k e => exact ⟨⟨[e], rfl⟩, rfl, rfl, rfl⟩
  | overran => exact ⟨⟨[], by simp⟩, rfl, rfl, rfl⟩

/-- Where a step's request stands (30_encoding.md R90, R91). -/
theorem Takes.request {s u : State} {r : Request} (h : Takes s r u) :
    s.port = some (.request r) ∨ s.port = none ∧ s.seq = .idle ∧ s.script.head? = some r := by
  rcases h with ⟨hport, -⟩ | ⟨hport, hseq, rs, hscript, -⟩
  · exact .inl hport
  · exact .inr ⟨hport, hseq, by rw [hscript, List.head?_cons]⟩

theorem step_keeps_cfg {s t : State} (h : step s = .next t) (hcfg : s.cfg = true) : t.cfg = true := by
  cases stepped_of_step h with
  | ran r u _ takes hi hexec => exact (exec_ended hi hexec).2.keeps_cfg (takes.cfg.trans hcfg)
  | began r u v takes _ _ starts => exact starts.cfg
  | waited | received | advanced | finished | overran => exact hcfg

/-- A step that sets `cfg` runs or begins an INIT that the platform accepts. -/
theorem step_sets_cfg {s t : State} (h : step s = .next t) (hcfg : s.cfg = false) (ht : t.cfg = true) :
    t.cfgOk = true ∧ t.cfgLines = ⟨.configured, .configured, .configured⟩ ∧
    ∃ r : Request, (s.port = some (.request r) ∨ s.port = none ∧ s.seq = .idle ∧ s.script.head? = some r) ∧
      s.requested r = .init ∧ r.cfgOk = true := by
  cases stepped_of_step h with
  | ran r u _ takes hi hexec =>
    obtain ⟨-, hended⟩ := exec_ended hi hexec
    obtain ⟨hinit, hok, hlines⟩ := hended.sets_cfg (takes.cfg.trans hcfg) ht
    have hcfgOk : t.cfgOk = u.cfgOk := by rw [hended.frame]
    exact ⟨hcfgOk.trans hok, hlines, r, takes.request, hinit, takes.cfgOk.symm.trans hok⟩
  | began r u v takes _ _ starts =>
    rcases starts with ⟨-, hcfg', -⟩ | ⟨hinit, hok, rfl⟩
    · simp [takes.cfg, hcfg] at hcfg'
    · exact ⟨hok, rfl, r, takes.request, hinit, takes.cfgOk.symm.trans hok⟩
  | waited | received | advanced | finished | overran => exact absurd (hcfg.symm.trans ht) (by decide)

/-- Settles O15: of the steps by the cases of a step, of the instructions by the ends of a host operation. -/
theorem everyStepKeepsConfigurationAndHistory : Obligations.EveryStepKeepsConfigurationAndHistory := by
  unfold Obligations.EveryStepKeepsConfigurationAndHistory
  refine ⟨fun s t h => ⟨step_keeps_cfg h, step_sets_cfg h, step_keeps_history h⟩, fun i s t h => ?_⟩
  cases hi : isHostOperation i with
  | true =>
    obtain ⟨-, hended⟩ := exec_ended hi h
    refine ⟨hended.keeps_cfg, fun hcfg ht => ?_⟩
    obtain ⟨hinit, hok, -⟩ := hended.sets_cfg hcfg ht
    exact ⟨hinit, hok⟩
  | false =>
    have hcfg := exec_cfg hi h
    exact ⟨hcfg.trans, fun hs ht => absurd (hs.symm.trans (hcfg.symm.trans ht)) (by decide)⟩

/-! ### The receiver's fault (20_memory.md R68, R69) -/

/-- Settles O16: whatever is played, received or forgotten leaves a set fault set. -/
theorem receiverFaultIsSticky : Obligations.ReceiverFaultIsSticky := by
  unfold Obligations.ReceiverFaultIsSticky
  refine ⟨fun i s t hfault h => ?_, fun s t hfault h => ?_⟩
  · rcases exec_next_cases h with hhost | ⟨-, -, rfl⟩ | ⟨-, rfl⟩
    · exact (played_of_hostOperation hhost h).fault hfault
    · exact (Played.play _ s).fault hfault
    · exact frameEffect_fault_of i hfault
  · by_cases hport : ∃ bits, s.port = some (.frame bits)
    · obtain ⟨bits, hport⟩ := hport
      rw [step_of_frame hport] at h
      cases h
      exact Receiver.receive_fault_of bits hfault
    · exact (played_of_step (fun bits hbits => hport ⟨bits, hbits⟩) h).fault hfault

/-- A WRITE whose pointer passes address 63 (20_memory.md R68). -/
def passesTop : Transaction → Prop
  | .cmd _ => False
  | .write addr data => 64 < addr.toNat + data.length

theorem Receiver.apply_fault_iff (t : Transaction) (r : Receiver) :
    (r.apply t).fault = true ↔ r.fault = true ∨ passesTop t := by
  cases t with
  | cmd code => simp [Receiver.apply, passesTop]
  | write addr data =>
    have haddr := addr.isLt
    rw [Receiver.apply, Receiver.writeData_fault, Bool.or_eq_true, Bool.not_eq_true', decide_eq_false_iff_not,
      passesTop]
    refine or_congr_right ⟨fun h => ?_, ?_⟩
    · rw [not_or, Config.ramCells] at h; omega
    · rintro h (rfl | hle)
      · rw [List.length_nil] at h; omega
      · rw [Config.ramCells] at hle; omega

theorem Receiver.applyAll_fault_iff (ts : List Transaction) (r : Receiver) :
    (ts.foldl (fun r t => r.apply t) r).fault = true ↔ r.fault = true ∨ ∃ t ∈ ts, passesTop t := by
  induction ts generalizing r with
  | nil => simp
  | cons t ts ih => rw [List.foldl_cons, ih, Receiver.apply_fault_iff]; simp [or_assoc]

theorem passesTop_single (addr : Address) (v : Nibble) : ¬ passesTop (.write addr [v]) := by
  have haddr := addr.isLt
  rw [passesTop, List.length_singleton]
  omega

theorem passesTop_bulk (p : Params) (v : Nibble) : passesTop (bulkTransaction p v) ↔ 64 < p.bulkNibbles := by
  simp [passesTop, bulkTransaction]

theorem not_passesTop_charTransactions {p : Params} {d ch : Nat} {t : Transaction}
    (h : t ∈ charTransactions p d ch) : ¬ passesTop t := by
  obtain ⟨i, -, rfl⟩ := List.mem_map.mp h
  exact passesTop_single _ _

theorem mem_stringTransactions {p : Params} {text : List Nat} {t : Transaction} (h : t ∈ stringTransactions p text) :
    ∃ k, t ∈ charTransactions p k (stringChar text k) := by
  obtain ⟨k, -, hk⟩ := List.mem_flatMap.mp h
  exact ⟨k, hk⟩

/-- The only transactions of a host operation that pass address 63 are bursts. -/
theorem burst_of_passesTop {p : Params} {i : Instr} {t : Transaction} (hmem : t ∈ courseTransactions p i)
    (h : passesTop t) :
    (∃ startAddr nibbles, i = .writeBurst startAddr nibbles ∧
      64 < (addressField startAddr).toNat + nibbles.length) ∨
    ((i = .init ∨ i = .clear ∨ ∃ on, i = .setAll on) ∧ 64 < p.bulkNibbles) := by
  cases i with
  | init =>
    simp only [courseTransactions, initTransactions, List.mem_cons, List.not_mem_nil, or_false] at hmem
    refine .inr ⟨.inl rfl, ?_⟩
    rcases hmem with rfl | rfl | rfl | rfl | rfl | rfl | rfl
    iterate 6 exact h.elim
    exact (passesTop_bulk p _).mp h
  | sendCommand code =>
    rw [List.mem_singleton.mp hmem] at h
    exact h.elim
  | writeNibble d n v =>
    rw [List.mem_singleton.mp hmem] at h
    exact absurd h (passesTop_single _ _)
  | writeBurst a ns =>
    rw [List.mem_singleton.mp hmem] at h
    exact .inl ⟨a, ns, rfl, by simpa [passesTop] using h⟩
  | setAll on =>
    rw [List.mem_singleton.mp hmem] at h
    exact .inr ⟨.inr (.inr ⟨on, rfl⟩), (passesTop_bulk p _).mp h⟩
  | clear =>
    rw [List.mem_singleton.mp hmem] at h
    exact .inr ⟨.inr (.inl rfl), (passesTop_bulk p _).mp h⟩
  | putChar d ch => exact absurd h (not_passesTop_charTransactions hmem)
  | putString text =>
    obtain ⟨k, hk⟩ := mem_stringTransactions hmem
    exact absurd h (not_passesTop_charTransactions hk)
  | _ => cases hmem

/-- Settles O17: from start lines a course reaches the receiver as its transactions, of which only a burst can pass
address 63. -/
theorem driverFaultsTheReceiverOnlyPast63 : Obligations.DriverFaultsTheReceiverOnlyPast63 := by
  unfold Obligations.DriverFaultsTheReceiverOnlyPast63
  intro i s t hs hi h hfault ht
  obtain ⟨hseq, hended⟩ := exec_ended hi h
  cases hended with
  | ok u runs starts =>
    rw [complete_rx, play_rx, starts.pins, starts.rx,
      wireRun_courseEvents runs (hs.startLines hseq starts).1] at ht
    rcases (Receiver.applyAll_fault_iff _ _).mp ht with hbefore | ⟨tr, hmem, htop⟩
    · simp [hfault] at hbefore
    · exact burst_of_passesTop hmem htop
  | outOfBounds | rejected => exact absurd (hfault.symm.trans ht) (by decide)

end Sys2Proof.Machine
end

section
/-! The step (10_state.md R27, 30_encoding.md R90 to R92): what it adds around the instructions, and that one line event
a step gives the same state as one operation a step (92_eei_decisions.md D31). Reset and construction. -/

namespace Sys2Proof.Machine

/-! ### What a step runs -/

theorem advance_of_lt {s : State} {op : Instr} {k : Nat} {es : List TraceElem} {e : TraceElem}
    (hplan : busyPlan? s.params op = some (.run es)) (he : es[k]? = some e) (hlt : k + 1 < es.length) :
    advance op k s = .next { play [e] s with seq := .busy op (k + 1) } := by
  simp [advance, hplan, he, hlt]

theorem advance_of_last {s : State} {op : Instr} {k : Nat} {es : List TraceElem} {e : TraceElem}
    (hplan : busyPlan? s.params op = some (.run es)) (he : es[k]? = some e) (hlast : k + 1 = es.length) :
    advance op k s = .next (complete .ok (play [e] s)) := by
  simp [advance, hplan, he, hlast]

theorem step_of_decoded_frame {s : State} {bits : List Bool} {i : Instr} (hport : s.port = some (.frame bits))
    (h : decodeFrame bits = .ok i) : step s = exec i { s with port := none } := by
  rw [step, hport]
  simp only [runArrival, h]

theorem step_of_rejected_frame {s : State} {bits : List Bool} {e : Reject} (hport : s.port = some (.frame bits))
    (h : decodeFrame bits = .error e) : step s = .next { s with port := none, rx := s.rx.forget } := by
  rw [step, hport]
  simp only [runArrival, h]
  rfl

theorem decodeRequest_wellFormed (n : Nat) (word : RequestWord) (list : List Nat) :
    (decodeRequest n word list).wellFormed n = true := by
  rcases Nat.lt_or_ge (requestOp n word) 8 with hlow | hhigh
  · interval_cases hop : requestOp n word <;>
      simp [decodeRequest, hop, Instr.wellFormed, requestA0, requestA1, requestA2, requestField_fits, listOperand_fits]
  · rw [decodeRequest_reserved list hhigh rfl]
    exact decide_eq_true ⟨hhigh, requestOp_lt n word⟩

/-- Settles O8: the cases of a step are by what stands at the port, the sequencer and the script. -/
theorem stepRunsTheDecodedInstruction : Obligations.StepRunsTheDecodedInstruction := by
  unfold Obligations.StepRunsTheDecodedInstruction
  refine ⟨fun s r hport => ?_, fun s bits i => step_of_decoded_frame, fun s bits e => step_of_rejected_frame,
    fun s r rs hport hseq hscript => ?_, fun s op k es e hport hseq hplan he => ?_, fun s => step_of_nothing,
    decodeRequest_wellFormed⟩
  · have htakes : Takes s r _ := .inl ⟨hport, rfl⟩
    rw [step_of_takes htakes]
    exact ⟨fun hgrain => launch_at_operation hgrain, fun _ => rfl⟩
  · have htakes : Takes s r _ := .inr ⟨hport, hseq, rs, hscript, rfl⟩
    rw [step_of_takes htakes]
    exact ⟨fun hgrain => launch_at_operation hgrain, fun _ => rfl⟩
  · rw [step_of_busy hport hseq]
    exact ⟨advance_of_lt hplan he, advance_of_last hplan he⟩

/-! ### The two grains (92_eei_decisions.md D31) -/

theorem run_of_step {s u : State} (h : step s = .next u) (n : Nat) : core.run (n + 1) s = core.run n u := by
  have hcore : core.step s = .next u := h
  simp only [Host.Core.run, hcore]

/-- A busy sequencer plays the rest of its course, one element a step, and completes with the last. -/
theorem run_of_busy {s : State} {op : Instr} {k n : Nat} {es : List TraceElem} (hport : s.port = none)
    (hseq : s.seq = .busy op k) (hplan : busyPlan? s.params op = some (.run es)) (hlen : k + (n + 1) = es.length) :
    core.run (n + 1) s = .next (complete .ok (play (es.drop k) s)) := by
  have he : es[k]? = some es[k] := List.getElem?_eq_getElem (by omega)
  have hdrop : es.drop k = [es[k]] ++ es.drop (k + 1) := List.drop_eq_getElem_cons (by omega)
  induction n generalizing s k with
  | zero =>
    rw [run_of_step ((step_of_busy hport hseq).trans (advance_of_last hplan he hlen)), hdrop,
      List.drop_eq_nil_of_le (by omega), List.append_nil]
    rfl
  | succ n ih =>
    have hrest := ih (s := { play [es[k]] s with seq := .busy op (k + 1) }) hport rfl hplan (by omega)
      (List.getElem?_eq_getElem (by omega)) (List.drop_eq_getElem_cons (by omega))
    rw [run_of_step ((step_of_busy hport hseq).trans (advance_of_lt hplan he (by omega))), hdrop, play_append]
    exact hrest

/-- A course that fails does so before any event, in the state's own trace (60_exceptions.md R215). -/
theorem admission_raise {i : Instr} {s u : State} {es : List TraceElem} {st : Status}
    (h : admission? i s = some (.ok (u, .raise es st))) : es = [] ∧ u.trace = s.trace := by
  obtain ⟨-, ⟨-, -, rfl, hp⟩ | ⟨-, -, rfl, hp⟩ | ⟨-, -, rfl, hp⟩⟩ := admission_ok h
  · exact ⟨(raise_of_busyPlan hp).1, rfl⟩
  · exact ⟨(raise_of_busyPlan hp).1, rfl⟩
  · cases hp
    exact ⟨rfl, rfl⟩

/-- The grains agree from the launch of a host operation: what begins ends in the state the whole operation gives. -/
theorem run_of_launch {i : Instr} {s t : State} (hi : isHostOperation i = true) (hport : s.port = none)
    (hgrain : s.grain = .event) (h : exec i s = .next t) :
    ∃ u, launch i s = .next u ∧ core.run (t.trace.length - s.trace.length) u = .next t := by
  obtain ⟨a, ha⟩ := Option.isSome_iff_exists.mp ((admission_isSome i s).trans hi)
  rw [exec_of_admission ha] at h
  rw [launch_at_event hgrain ha]
  rcases a with r | ⟨v, es | ⟨es, st⟩ | r⟩
  · cases h
  · cases h
    obtain ⟨-, hstarts, hplan⟩ := startsFrom_of_admission ha
    obtain rfl := eq_courseEvents_of_busyPlan hplan
    obtain ⟨n, hn⟩ := Nat.exists_eq_add_of_lt (courseEvents_length_pos (courseRuns_of_busyPlan hplan))
    have hlength : (complete .ok (play (courseEvents s.params i) v)).trace.length - s.trace.length = n + 1 := by
      simp [hstarts.trace, hn]
    refine ⟨_, rfl, ?_⟩
    rw [hlength]
    exact run_of_busy (s := { v with seq := .busy i 0 }) (hstarts.port.trans hport) rfl (hstarts.params ▸ hplan) hn.symm
  · obtain ⟨rfl, htrace⟩ := admission_raise ha
    cases h
    refine ⟨_, rfl, ?_⟩
    simp [htrace, Host.Core.run]
  · cases h

theorem launch_refused {i : Instr} {s : State} {r : Refusal} (hi : isHostOperation i = true) (hgrain : s.grain = .event)
    (h : exec i s = .refused r) : launch i s = .refused r := by
  obtain ⟨a, ha⟩ := Option.isSome_iff_exists.mp ((admission_isSome i s).trans hi)
  rw [exec_of_admission ha] at h
  rw [launch_at_event hgrain ha]
  rcases a with q | ⟨v, es | ⟨es, st⟩ | q⟩ <;> cases h
  · rfl
  · rfl

/-- The grains agree from the step that takes a request. -/
theorem run_of_takes {s u t : State} {r : Request} (htakes : Takes s r u) (hgrain : s.grain = .event)
    (h : exec (s.requested r) u = .next t) : core.run (t.trace.length - s.trace.length + 1) s = .next t := by
  rcases decodeRequest_group s.params.operandBits r.word r.list with hi | ⟨op, hop⟩
  · obtain ⟨v, hlaunch, hrun⟩ := run_of_launch hi htakes.port (htakes.grain.trans hgrain) h
    rw [run_of_step ((step_of_takes htakes).trans hlaunch), ← htakes.trace]
    exact hrun
  · rw [State.requested, hop, exec_reservedOp] at h
    cases h

theorem step_refused_of_takes {s u : State} {r : Request} {q : Refusal} (htakes : Takes s r u)
    (hgrain : s.grain = .event) (h : exec (s.requested r) u = .refused q) : step s = .refused q := by
  rw [step_of_takes htakes]
  rcases decodeRequest_group s.params.operandBits r.word r.list with hi | ⟨op, hop⟩
  · exact launch_refused hi (htakes.grain.trans hgrain) h
  · rw [State.requested, hop] at h ⊢
    rw [launch_reservedOp, h]

/-- Settles O9: a begun course is played to its end one element a step, and both grains have the same gates. -/
theorem eventGrainRefinesOperationGrain : Obligations.EventGrainRefinesOperationGrain := by
  unfold Obligations.EventGrainRefinesOperationGrain
  refine ⟨fun i s hi _ hport hgrain => ⟨fun t => run_of_launch hi hport hgrain, fun r => launch_refused hi hgrain⟩,
    fun s r hgrain _ hport => ?_, fun s r rs hgrain hseq hport hscript => ?_⟩
  · have htakes : Takes s r _ := .inl ⟨hport, rfl⟩
    exact ⟨fun t => run_of_takes htakes hgrain, fun q => step_refused_of_takes htakes hgrain⟩
  · have htakes : Takes s r _ := .inr ⟨hport, hseq, rs, hscript, rfl⟩
    exact ⟨fun t => run_of_takes htakes hgrain, fun q => step_refused_of_takes htakes hgrain⟩

/-! ### Reset and construction (10_state.md section 9, 44_device_lifecycle.md R190) -/

/-- Settles O10: each value is the field of `State.reset`. -/
theorem resetLeavesTheSpecsValues : Obligations.ResetLeavesTheSpecsValues := by
  unfold Obligations.ResetLeavesTheSpecsValues
  exact ⟨rfl, rfl, rfl, rfl, rfl, Memory.read_nil, rfl, rfl, rfl, rfl⟩

theorem Handle.distinct_iff (h : Handle) : h.distinct = true ↔ h.cs ≠ h.wr ∧ h.cs ≠ h.data ∧ h.wr ≠ h.data := by
  simp [Handle.distinct, and_assoc]

/-- Settles O11: the Boolean check of the handle is the three inequalities. -/
theorem constructionNeedsDistinctLines : Obligations.ConstructionNeedsDistinctLines := by
  unfold Obligations.ConstructionNeedsDistinctLines
  intro h
  rw [← Handle.distinct_iff]
  exact ⟨fun hdistinct => if_pos hdistinct, fun hsame => if_neg hsame⟩

end Sys2Proof.Machine
end

section
/-! The primitives (40_bit_transport.md, 41_frame_encoder.md R132) and the frames at the receiver (20_memory.md R65 to
R68). -/

namespace Sys2Proof.Machine

/-! ### EMIT_BIT (40_bit_transport.md R110) -/

/-- The lines and the receiver after EMIT_BIT, from any levels. -/
theorem play_bitEvents (level : Bool) (s : State) :
    play (bitEvents level) s = { s with
      pins := ⟨s.pins.cs, .high, Level.ofBool level⟩
      trace := s.trace ++ bitEvents level
      rx := { s.rx with
        bits := s.rx.bits ++ if s.pins.cs = .low ∧ s.rx.isOpen = true then [level] else [] } } := by
  rw [play, wireRun_bitEvents_of_any]

/-- Settles O18: the bit's one rising edge is its last line event, which a receiver with an open transaction samples. -/
theorem emitBitInsideABracket : Obligations.EmitBitInsideABracket := by
  unfold Obligations.EmitBitInsideABracket
  intro level s hcfg hcs _
  rw [exec_emitBit_of_cfg level hcfg, play_bitEvents, hcs, bitEvents]
  by_cases hopen : s.rx.isOpen = true
  · rw [if_pos ⟨rfl, hopen⟩, if_pos hopen]
  · rw [if_neg fun h => hopen h.2, if_neg hopen, List.append_nil]

/-- Settles O19: a receiver samples only while chip-select is low. -/
theorem emitBitOutsideABracketIsNotSampled : Obligations.EmitBitOutsideABracketIsNotSampled := by
  unfold Obligations.EmitBitOutsideABracketIsNotSampled
  intro level s hcfg hcs
  rw [exec_emitBit_of_cfg level hcfg, play_bitEvents, bitEvents]
  simp [hcs]

/-! ### Bracket edges (20_memory.md R64) -/

theorem exec_csAssert_of_cfg {s : State} (h : s.cfg = true) :
    exec .csAssert s = .next { s with
      pins := { s.pins with cs := .low }
      trace := s.trace ++ [.line .cs false]
      rx := s.rx.react s.pins .cs false } := runPrimitive_of_cfg assertEvents h

theorem exec_csRelease_of_cfg {s : State} (h : s.cfg = true) :
    exec .csRelease s = .next { s with
      pins := { s.pins with cs := .high }
      trace := s.trace ++ [.line .cs true]
      rx := s.rx.react s.pins .cs true } := runPrimitive_of_cfg releaseEvents h

theorem Receiver.bracketEdge_of_ne_low {wr : Level} (h : wr ≠ .low) (r : Receiver) : r.bracketEdge wr = r := if_neg h

/-- Chip-select falls: a real edge opens a transaction, a repeated one does not. -/
theorem Receiver.react_csFalls (p : Pins) (r : Receiver) :
    r.react p .cs false = if p.cs = .low then r.bracketEdge p.wr else (r.bracketEdge p.wr).opened := rfl

/-- Chip-select rises: a real edge closes the open transaction. -/
theorem Receiver.react_csRises (p : Pins) (r : Receiver) :
    r.react p .cs true =
      if p.cs = .low then
        if r.isOpen = true then (r.bracketEdge p.wr).closed else r.bracketEdge p.wr
      else r := rfl

theorem Receiver.closed_eq (r : Receiver) : r.closed = { r.receive r.bits with isOpen := false, bits := [] } := rfl

/-- Settles O21: with the clock high the edges only open and close. -/
theorem chipSelectOpensAndClosesATransaction : Obligations.ChipSelectOpensAndClosesATransaction := by
  unfold Obligations.ChipSelectOpensAndClosesATransaction
  refine ⟨fun s hcfg hcs hwr => ?_, fun s hcfg hcs hwr hopen => ?_⟩
  · rw [exec_csAssert_of_cfg hcfg, Receiver.react_csFalls, if_neg (by simp [hcs]),
      Receiver.bracketEdge_of_ne_low (by simp [hwr]), Receiver.opened]
  · rw [exec_csRelease_of_cfg hcfg, Receiver.react_csRises, if_pos hcs, if_pos hopen,
      Receiver.bracketEdge_of_ne_low (by simp [hwr]), Receiver.closed_eq]

/-- Settles O22: an edge that is none opens and closes nothing, and the clock's low level at a real one faults. -/
theorem bracketEdgesOutsideTheProtocol : Obligations.BracketEdgesOutsideTheProtocol := by
  unfold Obligations.BracketEdgesOutsideTheProtocol
  refine ⟨fun s hcfg hcs hwr => ?_, fun s hcfg hcs => ?_, fun s hcfg hwr => ⟨_, exec_csAssert_of_cfg hcfg, ?_⟩,
    fun s hcfg hwr hcs => ⟨_, exec_csRelease_of_cfg hcfg, ?_⟩⟩
  · rw [exec_csAssert_of_cfg hcfg, Receiver.react_csFalls, if_pos hcs, Receiver.bracketEdge_of_ne_low hwr, ← hcs]
  · rw [exec_csRelease_of_cfg hcfg, Receiver.react_csRises, if_neg hcs]
  · rw [Receiver.react_csFalls, hwr]
    split <;> rfl
  · rw [Receiver.react_csRises, if_pos hcs, hwr]
    split
    · exact Receiver.receive_fault_of _ rfl
    · rfl

/-! ### WRITE_ADDR (41_frame_encoder.md R132) -/

theorem wireEvents_length (t : Transaction) : (wireEvents t).length = 5 * t.frameBits.length + 2 := by
  have hbits : (t.frameBits.flatMap bitEvents).length = 5 * t.frameBits.length := by
    simp [List.length_flatMap, bitEvents, Nat.mul_comm]
  simp [wireEvents, assertEvents, releaseEvents, hbits]

/-- `play_transactions` from idle lines, whatever the receiver and the sequencer. -/
theorem play_transactions_of_idle {ts : List Transaction} (hne : ts ≠ []) (h : ∀ t ∈ ts, Sendable t) {s : State}
    (hpins : s.pins.idle) : play (ts.flatMap wireEvents) s = afterSending ts s := by
  have hrun := wireRun_transactions_of_ne hne h s.pins.data s.rx
  rw [← Pins.eq_of_idle hpins] at hrun
  rw [play, hrun]
  rfl

theorem exec_writeAddr_of_idle (addr value : Nat) {s : State} (hcfg : s.cfg = true) (hpins : s.pins.idle) :
    exec (.writeAddr addr value) s = .next (afterSending [.write (addressField addr) [nibbleField value]] s) := by
  have hplay := play_transactions_of_idle (ts := [.write (addressField addr) [nibbleField value]]) (by simp)
    (by simp [Sendable]) hpins
  rw [List.flatMap_singleton, ← writeAddrEvents_eq] at hplay
  rw [exec_of_isPrimitive rfl, runPrimitive_of_cfg _ hcfg, primitiveEvents, hplay]

/-- Settles O23: WRITE_ADDR's events are the wire form of one WRITE, and 13 bits take 67 elements. -/
theorem writeAddrSendsOneWrite : Obligations.WriteAddrSendsOneWrite := by
  unfold Obligations.WriteAddrSendsOneWrite
  refine fun addr value s hcfg hpins => ⟨exec_writeAddr_of_idle addr value hcfg hpins, ?_⟩
  rw [wireEvents_length, frameBits_write_length, List.length_singleton]

/-! ### Frames at the receiver (20_memory.md R65 to R68) -/

/-- Settles O25: a command row is its code, received. -/
theorem receivedCommandIsLoggedOnly : Obligations.ReceivedCommandIsLoggedOnly := by
  unfold Obligations.ReceivedCommandIsLoggedOnly
  exact ⟨fun code s => rfl, fun i code s hcode => exec_of_namedCode hcode s⟩

/-- Settles O27: a reserved tag makes the receiver forget. -/
theorem reservedTagFaultsTheReceiver : Obligations.ReservedTagFaultsTheReceiver := by
  unfold Obligations.ReservedTagFaultsTheReceiver
  exact fun bits s => ⟨_, exec_of_isFrame (i := .reservedTag bits) rfl s, rfl, Memory.read_nil, rfl⟩

theorem exec_writeBurstFrame (addr : Address) (data : List Nibble) (s : State) :
    exec (.writeBurstFrame addr data) s = .next { s with rx := s.rx.writeData addr data } :=
  exec_of_isFrame (i := .writeBurstFrame addr data) rfl s

/-- A received WRITE changes the RAM, the log and, past address 63, the fault. -/
theorem Receiver.writeData_frame (addr : Address) (data : List Nibble) (r : Receiver) :
    r.writeData addr data = { r with
      ram := (r.writeData addr data).ram
      log := r.log ++ [.write addr data]
      fault := (r.writeData addr data).fault } := by
  rcases r.writeData_cases addr data with ⟨ram, -, h⟩ | ⟨-, h⟩ <;> rw [h]

/-- Nibble `i` of a WRITE within the 64 cells stands at `a + i`. -/
theorem Receiver.read_writeData_inside {addr : Address} {data : List Nibble} {r : Receiver}
    (h : addr.toNat + data.length ≤ Config.ramCells) {i : Nat} (hi : i < data.length) :
    (r.writeData addr data).ram.read (addr.toNat + i) = some data[i] := by
  rw [Receiver.read_writeData h, if_pos (by omega), Nat.add_sub_cancel_left, List.getElem?_eq_getElem hi]

theorem Receiver.read_writeData_outside {addr : Address} {data : List Nibble} {r : Receiver}
    (h : addr.toNat + data.length ≤ Config.ramCells) {a : Nat} (ha : a < addr.toNat ∨ addr.toNat + data.length ≤ a) :
    (r.writeData addr data).ram.read a = r.ram.read a := by
  rw [Receiver.read_writeData h, if_neg (by omega)]

/-- Settles O26: the stores of a burst one by one, or all cells forgotten. -/
theorem receivedWriteStoresAscending : Obligations.ReceivedWriteStoresAscending := by
  unfold Obligations.ReceivedWriteStoresAscending
  intro addr data s
  refine ⟨_, exec_writeBurstFrame addr data s, ?_, fun hin => ⟨?_, fun i hi => ?_, fun a ha => ?_⟩, fun hpast => ?_, ?_⟩
  · exact congrArg (fun r => { s with rx := r }) (Receiver.writeData_frame addr data s.rx)
  · have hle : addr.toNat + data.length ≤ Config.ramCells := hin
    simp [Receiver.writeData_fault, hle]
  · exact Receiver.read_writeData_inside hin hi
  · exact Receiver.read_writeData_outside hin ha
  · refine ⟨(Receiver.apply_fault_iff (.write addr data) s.rx).mpr (.inr hpast), fun a => ?_⟩
    simp only [Receiver.writeData_past hpast, Memory.read_nil]
  · rintro d rfl
    exact exec_of_isFrame (i := .write addr d) rfl s

/-- Storing the same burst again changes no cell. -/
theorem Receiver.writeData_twice_ram {addr : Address} {data : List Nibble} {r : Receiver} (hr : r.ram.wf)
    (h : addr.toNat + data.length ≤ Config.ramCells) :
    ((r.writeData addr data).writeData addr data).ram = (r.writeData addr data).ram := by
  have hwf : (r.writeData addr data).ram.wf := Receiver.apply_wf (.write addr data) hr
  refine Memory.eq_of_read (Receiver.apply_wf (.write addr data) hwf) hwf fun a => ?_
  by_cases ha : addr.toNat ≤ a ∧ a < addr.toNat + data.length
  · rw [Receiver.read_writeData h, if_pos ha, Receiver.read_writeData h, if_pos ha]
  · rw [Receiver.read_writeData h, if_neg ha]

/-- Settles O28: both RAMs are canonical and read alike. -/
theorem receivedWriteIsIdempotent : Obligations.ReceivedWriteIsIdempotent := by
  unfold Obligations.ReceivedWriteIsIdempotent
  intro addr data s t u hwf ht hu hle
  rw [exec_writeBurstFrame] at ht hu
  cases ht
  cases hu
  exact Receiver.writeData_twice_ram hwf hle

end Sys2Proof.Machine
end

section
/-! Operands (30_encoding.md R85, 20_memory.md R51, 43_glyph_text.md R170): masks, the address function and the glyph
read. -/

namespace Sys2Proof.Machine

/-! ### Masked operands (41_frame_encoder.md R133) -/

theorem commandField_mod (code : Nat) : commandField (code % 256) = commandField code := by
  refine BitVec.eq_of_toNat_eq ?_
  simp only [commandField_toNat, Nat.and_two_pow_sub_one_eq_mod _ 8]
  exact Nat.mod_mod _ _

theorem addressField_mod (addr : Nat) : addressField (addr % 64) = addressField addr := by
  refine BitVec.eq_of_toNat_eq ?_
  simp only [addressField_toNat, Nat.and_two_pow_sub_one_eq_mod _ 6]
  exact Nat.mod_mod _ _

theorem nibbleField_mod (v : Nat) : nibbleField (v % 16) = nibbleField v := by
  refine BitVec.eq_of_toNat_eq ?_
  simp only [nibbleField_toNat, Nat.and_two_pow_sub_one_eq_mod _ 4]
  exact Nat.mod_mod _ _

theorem writeAddrEvents_mod (addr value : Nat) :
    writeAddrEvents (addr % 64) (value % 16) = writeAddrEvents addr value := by
  rw [writeAddrEvents_eq, writeAddrEvents_eq, addressField_mod, nibbleField_mod]

theorem planSendCommand_mod (code : Nat) : planSendCommand (code % 256) = planSendCommand code := by
  rw [planSendCommand_eq, planSendCommand_eq, commandField_mod]

theorem planWriteBurst_mod (startAddr : Nat) (nibbles : List Nat) :
    planWriteBurst (startAddr % 64) (nibbles.map (· % 16)) = planWriteBurst startAddr nibbles := by
  by_cases hempty : nibbles = []
  · subst hempty; rfl
  · rw [planWriteBurst_eq hempty, planWriteBurst_eq (by simpa using hempty), addressField_mod, List.map_map]
    simp only [Function.comp_def, nibbleField_mod]

theorem planWriteNibble_mod (d n v : Nat) : planWriteNibble d n (v % 16) = planWriteNibble d n v := by
  by_cases hb : d < 10 ∧ n < 4
  · rw [planWriteNibble_inBounds hb.1 hb.2, planWriteNibble_inBounds hb.1 hb.2, nibbleField_mod]
  · rw [planWriteNibble_outOfBounds (by omega), planWriteNibble_outOfBounds (by omega)]

/-- Settles O44: a course sees its operands through their fields only. -/
theorem wideOperandsAreMasked : Obligations.WideOperandsAreMasked := by
  unfold Obligations.WideOperandsAreMasked
  refine fun s => ⟨fun code => ?_, fun a ns => ?_, fun d n v => ?_, fun a v => ?_⟩
  · exact congrArg (fun p => runAdmitted (admitReady p s)) (planSendCommand_mod code).symm
  · exact congrArg (fun p => runAdmitted (admitReady p s)) (planWriteBurst_mod a ns).symm
  · exact congrArg (fun p => runAdmitted (admitReady p s)) (planWriteNibble_mod d n v).symm
  · exact congrArg (fun es => runPrimitive es s) (writeAddrEvents_mod a v).symm

/-! ### The address function (20_memory.md R51) -/

theorem digitAddress_shiftRight {d n : Nat} (hn : n < 4) : digitAddress d n >>> 2 = d := by
  rw [digitAddress, Nat.shiftRight_eq_div_pow]
  omega

theorem digitAddress_and {d n : Nat} (hn : n < 4) : digitAddress d n &&& 3 = n := by
  rw [digitAddress, Nat.and_two_pow_sub_one_eq_mod _ 2]
  omega

/-- Settles O46: digit and nibble are the quotient and the remainder of the address by 4. -/
theorem addressFunction : Obligations.AddressFunction := by
  unfold Obligations.AddressFunction
  refine ⟨fun d n hd hn => ⟨rfl, ?_, addressField_digitAddress_toNat hd hn, digitAddress_shiftRight hn,
    digitAddress_and hn⟩, fun d n d' n' _ hn _ hn' h => ?_, fun a ha => ?_⟩
  · rw [digitAddress]; omega
  · rw [digitAddress, digitAddress] at h; omega
  · rw [digitAddress, Nat.shiftRight_eq_div_pow, Nat.and_two_pow_sub_one_eq_mod _ 2]
    omega

/-! ### The glyph read (43_glyph_text.md R170, R171) -/

theorem glyphRead_blank (p : Params) {ch : Nat}
    (h : ch ∉ [0x2D, 0x30, 0x31, 0x32, 0x33, 0x34, 0x35, 0x36, 0x37, 0x38, 0x39, 0x41, 0x42, 0x43, 0x44, 0x45, 0x46]) :
    glyphRead p ch = 0x0000 := by
  unfold glyphRead glyphEntry
  split <;> simp_all

/-- Settles O45: the read has a branch for each open entry, and blank in all others. -/
theorem glyphReadIsTotal : Obligations.GlyphReadIsTotal := by
  unfold Obligations.GlyphReadIsTotal
  exact fun p ch => ⟨glyphRead_blank p, rfl⟩

end Sys2Proof.Machine
end

section
/-! What each host operation does between requests (41_frame_encoder.md, 42_display_ram.md, 43_glyph_text.md): one lemma
for all courses, and what the transactions leave in the display RAM. -/

namespace Sys2Proof.Machine

/-! ### Completing between requests -/

/-- Between requests a host operation but INIT that runs completes with OK, having sent its transactions. -/
theorem exec_of_ready {i : Instr} {s : State} (hs : s.Ready) (hne : i ≠ .init) (runs : CourseRuns s.params i) :
    exec i s = .next (complete .ok (afterSending (courseTransactions s.params i) s)) := by
  obtain ⟨hnonempty, hsend⟩ := courseTransactions_sendable runs
  rw [exec_eq_runPlan (isHostOperation_of_courseRuns runs) hne hs.seqIdle hs.configured (busyPlan_of_courseRuns runs),
    courseEvents_of_ne_init _ hne, runPlan, play_transactions_of_idle hnonempty hsend hs.pinsIdle]

theorem Receiver.withOpen_of_idle {r : Receiver} (h : r.idle) : { r with isOpen := false, bits := [] } = r := by
  obtain ⟨hopen, hbits⟩ := h
  rw [← hopen, ← hbits]

theorem Receiver.applyAll_idle (ts : List Transaction) {r : Receiver} (h : r.idle) :
    (ts.foldl (fun r t => r.apply t) r).idle :=
  ⟨(Receiver.applyAll_isOpen ts r).trans h.1, (Receiver.applyAll_bits ts r).trans h.2⟩

/-- An idle receiver has received the transactions and nothing else. -/
theorem afterSending_of_idle (ts : List Transaction) {s : State} (h : s.rx.idle) :
    afterSending ts s = { s with
      pins := ⟨.high, .high, lastLevel s.pins.data (ts.flatMap Transaction.frameBits)⟩
      rx := ts.foldl (fun r t => r.apply t) s.rx
      trace := s.trace ++ ts.flatMap wireEvents } := by
  rw [afterSending, Receiver.withOpen_of_idle (Receiver.applyAll_idle ts h)]

theorem afterSending_ram (ts : List Transaction) (s : State) :
    (afterSending ts s).rx.ram = (ts.foldl (fun r t => r.apply t) s.rx).ram := rfl

/-- After a completion the driver is ready for the next request. -/
theorem State.Ready.afterSending {s : State} (hs : s.Ready) (st : Status) (ts : List Transaction) :
    (complete st (afterSending ts s)).Ready where
  seqIdle := rfl
  configured := hs.configured
  pinsIdle := ⟨rfl, rfl, lastLevel_ne_undriven hs.pinsIdle.2.2 _⟩
  rxIdle := ⟨rfl, rfl⟩

/-! ### SEND_COMMAND, WRITE_NIBBLE, WRITE_BURST -/

theorem lastLevel_frameBits_cmd (d : Level) (code : Nat) :
    lastLevel d (Transaction.cmd (commandField code)).frameBits = Level.ofBool (code.testBit 0) := by
  rw [Transaction.frameBits, lastLevel_append, lastLevel_msbFirst _ _ (by decide), commandField_toNat, Nat.testBit_and]
  simp

/-- Settles O29: one COMMAND, whose last bit is the code's bit 0. -/
theorem sendCommandCompletes : Obligations.SendCommandCompletes := by
  unfold Obligations.SendCommandCompletes
  intro code s hs
  rw [exec_of_ready (i := .sendCommand code) hs (by simp) trivial, courseTransactions,
    complete_of_idle (s := afterSending _ s) .ok hs.seqIdle, afterSending_of_idle _ hs.rxIdle,
    List.flatMap_singleton, List.flatMap_singleton, lastLevel_frameBits_cmd]
  rfl

/-- Settles O30: one WRITE, to the cell the address function gives. -/
theorem writeNibbleCompletes : Obligations.WriteNibbleCompletes := by
  unfold Obligations.WriteNibbleCompletes
  intro digit nibbleIndex value s hs hd hn
  have hread (a : Nat) := Receiver.read_apply_write_single (addressField (digitAddress digit nibbleIndex))
    (nibbleField value) s.rx a
  rw [addressField_digitAddress_toNat hd hn] at hread
  exact ⟨_, exec_of_ready (i := .writeNibble digit nibbleIndex value) hs (by simp) ⟨hd, hn⟩, rfl,
    (hread _).trans (if_pos rfl), fun a ha => (hread a).trans (if_neg ha)⟩

/-- Settles O32: a burst that is not empty runs. -/
theorem writeBurstCompletes : Obligations.WriteBurstCompletes := by
  unfold Obligations.WriteBurstCompletes
  exact fun startAddr nibbles s hs hne => exec_of_ready (i := .writeBurst startAddr nibbles) hs (by simp) hne

/-- Settles O43: both send the same events, and WRITE_BURST then completes. -/
theorem burstOfOneIsTheSingleWrite : Obligations.BurstOfOneIsTheSingleWrite := by
  unfold Obligations.BurstOfOneIsTheSingleWrite
  intro startAddr v s t hseq h
  obtain ⟨hcfg, rfl⟩ := primitive_next rfl h
  have hplan : busyPlan? s.params (.writeBurst startAddr [v]) = some (.run (writeAddrEvents startAddr v)) := by
    rw [busyPlan?, planWriteBurst_eq (by simp), writeAddrEvents_eq, List.map_singleton]
  exact exec_eq_runPlan rfl (by simp) hseq hcfg hplan

/-! ### SET_ALL and CLEAR (42_display_ram.md) -/

theorem Params.legal_iff (p : Params) : p.legal = true ↔ 1 ≤ p.bulkNibbles ∧ p.bulkNibbles ≤ 64 := decide_eq_true_iff

theorem Params.coversDigits_iff (p : Params) : p.coversDigits = true ↔ 40 ≤ p.bulkNibbles ∧ p.bulkNibbles ≤ 64 :=
  decide_eq_true_iff

/-- The cells after a bulk fill of a legal size. -/
theorem Receiver.read_apply_bulk {p : Params} (h : p.legal = true) (v : Nibble) (r : Receiver) (a : Nat) :
    (r.apply (bulkTransaction p v)).ram.read a = if a < p.bulkNibbles then some v else r.ram.read a := by
  obtain ⟨-, hsize⟩ := (Params.legal_iff p).mp h
  have hfits : (0 : Address).toNat + (List.replicate p.bulkNibbles v).length ≤ Config.ramCells := by
    simpa [Config.ramCells] using hsize
  rw [bulkTransaction, Receiver.apply, Receiver.read_writeData hfits]
  by_cases ha : a < p.bulkNibbles <;> simp [ha]

/-- Each bulk operation is one bulk transaction. -/
theorem exec_bulk_of_ready {i : Instr} {v : Nibble} {s : State}
    (hi : (i = .clear ∧ v = 0x0) ∨ (∃ on, i = .setAll on ∧ v = if on ≠ 0 then 0xF else 0x0)) (hs : s.Ready)
    (hlegal : s.params.legal = true) :
    exec i s = .next (complete .ok (afterSending [bulkTransaction s.params v] s)) := by
  have hsize : s.params.bulkNibbles ≠ 0 := by
    obtain ⟨hpos, -⟩ := (Params.legal_iff s.params).mp hlegal
    omega
  rcases hi with ⟨rfl, rfl⟩ | ⟨on, rfl, rfl⟩
  · exact exec_of_ready hs (by simp) hsize
  · exact exec_of_ready hs (by simp) hsize

/-- Settles O33: one bulk transaction of a legal size. -/
theorem bulkFillsComplete : Obligations.BulkFillsComplete := by
  unfold Obligations.BulkFillsComplete
  intro i v s hi hs hlegal
  have hread := Receiver.read_apply_bulk hlegal v s.rx
  exact ⟨_, exec_bulk_of_ready hi hs hlegal, rfl, fun a ha => (hread a).trans (if_pos ha),
    fun a ha => (hread a).trans (if_neg (Nat.not_lt.mpr ha))⟩

/-- A bulk fill of a legal size faults nothing. -/
theorem Receiver.apply_bulk_fault {p : Params} (h : p.legal = true) (v : Nibble) (r : Receiver) :
    (r.apply (bulkTransaction p v)).fault = r.fault := by
  obtain ⟨-, hsize⟩ := (Params.legal_iff p).mp h
  rw [Bool.eq_iff_iff, Receiver.apply_fault_iff, passesTop_bulk]
  exact or_iff_left (Nat.not_lt.mpr hsize)

/-- Settles O42: three bulk fills in a row, each over all forty addressable cells; and the last one twice. -/
theorem clearSetAllClear : Obligations.ClearSetAllClear := by
  unfold Obligations.ClearSetAllClear
  intro on s hs hsafe hwf hcovers hon
  obtain ⟨hforty, hsize⟩ := (Params.coversDigits_iff s.params).mp hcovers
  have hlegal : s.params.legal = true := (Params.legal_iff s.params).mpr ⟨by omega, hsize⟩
  have hset : (0xF : Nibble) = if on ≠ 0 then 0xF else 0x0 := (if_pos hon).symm
  have hs1 := hs.afterSending .ok [bulkTransaction s.params 0x0]
  have hs2 := hs1.afterSending .ok [bulkTransaction s.params 0xF]
  refine ⟨_, _, _, _, exec_bulk_of_ready (.inl ⟨rfl, rfl⟩) hs hlegal,
    exec_bulk_of_ready (.inr ⟨on, rfl, hset⟩) hs1 hlegal, exec_bulk_of_ready (.inl ⟨rfl, rfl⟩) hs2 hlegal,
    exec_bulk_of_ready (.inl ⟨rfl, rfl⟩) hs1 hlegal, ?_, fun a ha => ?_, fun a ha => ?_, ?_⟩
  · exact (Receiver.apply_bulk_fault hlegal _ _).trans ((Receiver.apply_bulk_fault hlegal _ _).trans
      ((Receiver.apply_bulk_fault hlegal _ _).trans hsafe))
  · exact (Receiver.read_apply_bulk hlegal _ _ a).trans (if_pos (by omega))
  · exact (Receiver.read_apply_bulk hlegal _ _ a).trans (if_pos (by omega))
  · have hfits :
        (0 : Address).toNat + (List.replicate s.params.bulkNibbles (0x0 : Nibble)).length ≤ Config.ramCells := by
      simpa [Config.ramCells] using hsize
    have hopen := congrArg Receiver.ram (Receiver.apply_withOpen (bulkTransaction s.params 0x0)
      (s.rx.apply (bulkTransaction s.params 0x0)) false [])
    exact Eq.trans hopen (Receiver.writeData_twice_ram hwf hfits)

end Sys2Proof.Machine
end

section
/-! PUT_CHAR and PUT_STRING (43_glyph_text.md): what they send, and the cells they fill. -/

namespace Sys2Proof.Machine

/-! ### PUT_CHAR (R173) -/

/-- Settles O34: a code and a digit in range send the mask's four nibbles. -/
theorem putCharCompletes : Obligations.PutCharCompletes := by
  unfold Obligations.PutCharCompletes
  exact fun digit ch s hs hd hch => exec_putChar_of_ready hs hd hch

theorem highCodeRefused_of_taken {p : Params} {ch : Nat} (h : p.glyphHighCodes = .refuse → ch ≤ 127) :
    highCodeRefused p ch = false := by
  rw [Bool.eq_false_iff, Ne, highCodeRefused_iff]
  rintro ⟨hrefuse, hhigh⟩
  exact Nat.not_lt.mpr (h hrefuse) hhigh

/-- Settles O36: the first nibble's bounds stop the course before any event. -/
theorem putCharBadDigitTouchesNothing : Obligations.PutCharBadDigitTouchesNothing := by
  unfold Obligations.PutCharBadDigitTouchesNothing
  intro digit ch s hseq hcfg hd hch
  have hplan : busyPlan? s.params (.putChar digit ch) = some (.raise [] .invalidArgument) :=
    congrArg some (planPutChar_badDigit (highCodeRefused_of_taken hch) hd)
  rw [exec_eq_runPlan rfl (by simp) hseq hcfg hplan, runPlan_raise_nil _ hseq]

/-- A digit's WRITEs leave the cells of the other digits. -/
theorem Receiver.read_applyAll_charTransactions_other (p : Params) {d a : Nat} (ch : Nat) (r : Receiver) (hd : d < 10)
    (ha : a / 4 ≠ d) : ((charTransactions p d ch).foldl (fun r t => r.apply t) r).ram.read a = r.ram.read a := by
  have hne (i : Nat) (hi : i < 4) : a ≠ 4 * d + i := by omega
  simp (disch := omega) only [charTransactions, List.map_cons, List.map_nil, List.foldl_cons, List.foldl_nil,
    Receiver.read_apply_write_single, addressField_digitAddress_toNat, hne, if_false]

/-! ### PUT_STRING (R175) -/

/-- After the first `n` digits of a string their cells hold its glyphs, and the others what they held. -/
theorem Receiver.read_applyAll_digits (p : Params) (text : List Nat) (r : Receiver) {n : Nat} (hn : n ≤ 10) (a : Nat) :
    (((List.range n).flatMap fun k => charTransactions p k (stringChar text k)).foldl (fun r t => r.apply t) r).ram.read
      a =
      if a < 4 * n then some (nibbleField (maskNibble (glyphRead p (stringChar text (a / 4))) (a % 4)))
      else r.ram.read a := by
  induction n with
  | zero => rfl
  | succ n ih =>
    rw [List.range_succ, List.flatMap_append, List.flatMap_singleton, List.foldl_append]
    by_cases hdigit : a / 4 = n
    · have hcell := Receiver.read_applyAll_charTransactions p (stringChar text n)
        (((List.range n).flatMap fun k => charTransactions p k (stringChar text k)).foldl (fun r t => r.apply t) r)
        (d := n) (i := a % 4) (by omega) (by omega)
      rw [show 4 * n + a % 4 = a by omega] at hcell
      rw [hcell, if_pos (by omega), hdigit]
    · rw [Receiver.read_applyAll_charTransactions_other p _ _ (by omega) hdigit, ih (by omega)]
      by_cases hbelow : a < 4 * n
      · rw [if_pos hbelow, if_pos (by omega)]
      · rw [if_neg hbelow, if_neg (by omega)]

theorem Receiver.read_applyAll_stringTransactions (p : Params) (text : List Nat) (r : Receiver) (a : Nat) :
    ((stringTransactions p text).foldl (fun r t => r.apply t) r).ram.read a =
      if a < 40 then some (nibbleField (maskNibble (glyphRead p (stringChar text (a / 4))) (a % 4)))
      else r.ram.read a :=
  Receiver.read_applyAll_digits p text r (Nat.le_refl 10) a

theorem stringChar_of_getElem? {text : List Nat} {k ch : Nat} (h : text[k]? = some ch) : stringChar text k = ch := by
  rw [stringChar, List.getD_eq_getElem?_getD, h, Option.getD_some]

theorem stringChar_beyond {text : List Nat} {k : Nat} (h : text.length ≤ k) : stringChar text k = spaceCode := by
  rw [stringChar, List.getD_eq_getElem?_getD, List.getElem?_eq_none h, Option.getD_none]

/-- The string's course runs when its first ten codes are taken; the space always is. -/
theorem courseRuns_putString {p : Params} {text : List Nat}
    (h : p.glyphHighCodes = .refuse → ∀ k, k < 10 → ∀ ch, text[k]? = some ch → ch ≤ 127) :
    CourseRuns p (.putString text) := by
  intro k hk
  refine highCodeRefused_of_taken fun hrefuse => ?_
  cases hch : text[k]? with
  | some ch => rw [stringChar_of_getElem? hch]; exact h hrefuse k hk ch hch
  | none => rw [stringChar_beyond (List.getElem?_eq_none_iff.mp hch)]; decide

theorem glyphRead_space (p : Params) : glyphRead p spaceCode = 0 := glyphRead_blank p (by decide)

/-- A blank glyph has zero nibbles. -/
theorem nibbleField_space (p : Params) (i : Nat) : nibbleField (maskNibble (glyphRead p spaceCode) i) = 0 := by
  rw [nibbleField_maskNibble, glyphRead_space]
  simp

/-- Settles O37: the forty cells are those of the ten digits, each with its own character's glyph. -/
theorem putStringCompletes : Obligations.PutStringCompletes := by
  unfold Obligations.PutStringCompletes
  intro text s hs htaken
  have hrun : exec (.putString text) s = .next (complete .ok (afterSending (stringTransactions s.params text) s)) :=
    exec_of_ready (i := .putString text) hs (by simp) (courseRuns_putString htaken)
  have hread (a : Nat) : (complete .ok (afterSending (stringTransactions s.params text) s)).rx.ram.read a =
      if a < 40 then some (nibbleField (maskNibble (glyphRead s.params (stringChar text (a / 4))) (a % 4)))
      else s.rx.ram.read a := by
    rw [complete_rx, afterSending_ram, Receiver.read_applyAll_stringTransactions]
  have hcell (k i : Nat) (hk : k < 10) (hi : i < 4) :
      (complete .ok (afterSending (stringTransactions s.params text) s)).rx.ram.read (4 * k + i) =
        some (nibbleField (maskNibble (glyphRead s.params (stringChar text k)) i)) := by
    rw [hread, if_pos (by omega), show (4 * k + i) / 4 = k by omega, show (4 * k + i) % 4 = i by omega]
  refine ⟨_, hrun, rfl, fun k i hk hi ch hch => ?_, fun k i hk hi hbeyond => ?_, fun a ha => ?_⟩
  · rw [hcell k i hk hi, stringChar_of_getElem? hch]
  · rw [hcell k i hk hi, stringChar_beyond hbeyond, nibbleField_space]
  · rw [hread, if_neg (by omega)]

/-- The transactions of a character, by the bits of its mask. -/
theorem charTransactions_eq (p : Params) {d : Nat} (ch : Nat) (hd : d < 10) :
    charTransactions p d ch = (List.range 4).map fun i =>
      .write (BitVec.ofNat 6 (4 * d + i)) [(glyphRead p ch).extractLsb' (4 * i) 4] := by
  refine List.map_congr_left fun i hi => ?_
  have hi : i < 4 := List.mem_range.mp hi
  have haddr : addressField (digitAddress d i) = BitVec.ofNat 6 (4 * d + i) := by
    refine BitVec.eq_of_toNat_eq ?_
    rw [addressField_digitAddress_toNat hd hi, BitVec.toNat_ofNat, Nat.mod_eq_of_lt (by omega)]
  rw [haddr, nibbleField_maskNibble]

/-- Settles O38: two glyphs and eight blanks, in the digits' order. -/
theorem putString42 : Obligations.PutString42 := by
  unfold Obligations.PutString42
  intro s hs
  have htaken : CourseRuns s.params (.putString [0x34, 0x32]) := by
    refine courseRuns_putString fun _ k _ ch hch => ?_
    have hmem := List.mem_of_getElem? hch
    simp only [List.mem_cons, List.not_mem_nil, or_false] at hmem
    omega
  have hsplit : stringTransactions s.params [0x34, 0x32] =
      charTransactions s.params 0 0x34 ++ charTransactions s.params 1 0x32 ++
        (List.range 8).flatMap fun k => charTransactions s.params (2 + k) spaceCode := rfl
  have hblanks : ((List.range 8).flatMap fun k => charTransactions s.params (2 + k) spaceCode) =
      (List.range 32).map fun i => .write (BitVec.ofNat 6 (8 + i)) [0x0] := by
    have hdigit (k : Nat) (hk : k ∈ List.range 8) : charTransactions s.params (2 + k) spaceCode =
        (List.range 4).map fun i => .write (BitVec.ofNat 6 (4 * (2 + k) + i)) [0x0] := by
      rw [charTransactions_eq _ _ (by rw [List.mem_range] at hk; omega)]
      refine List.map_congr_left fun i _ => ?_
      rw [glyphRead_space]
      simp
    rw [List.flatMap_congr hdigit]
    rfl
  refine ⟨_, exec_of_ready (i := .putString [0x34, 0x32]) hs (by simp) htaken, rfl, ?_⟩
  refine (Receiver.applyAll_log _ s.rx).trans ?_
  rw [courseTransactions, hsplit, hblanks, charTransactions_eq _ _ (by decide), charTransactions_eq _ _ (by decide),
    ← List.append_assoc, ← List.append_assoc]
  rfl

end Sys2Proof.Machine
end

section
/-! INIT (44_device_lifecycle.md R191 to R194): its completion, the state after it from reset, and the platform's
rejection. -/

namespace Sys2Proof.Machine

/-- With the platform's yes, a first INIT follows its course from the configured lines. -/
theorem exec_init_of_accepted {s : State} (hseq : s.seq = .idle) (hfirst : s.cfg = false ∨ s.params.allowReinit = true)
    (hhandle : s.handle.distinct = true) (hanswer : s.cfgOk = true) :
    exec .init s = runPlan (planInit s.params) (configureLines s) := by
  rw [exec_of_admission (a := admitInit s) rfl, admitInit_of_first hseq hfirst, if_neg (by simp [hhandle]),
    if_neg (by simp [hanswer]), runAdmitted]

/-- Settles O41: the rejection comes before any event, and its records are those of `rejectLines`. -/
theorem initRejectedByThePlatform : Obligations.InitRejectedByThePlatform := by
  unfold Obligations.InitRejectedByThePlatform
  intro s hseq hfirst hhandle hanswer
  refine ⟨(rejectLines s).cfgLines, ?_⟩
  rw [exec_of_admission (a := admitInit s) rfl, admitInit_of_first hseq hfirst, if_neg (by simp [hhandle]),
    if_pos hanswer, runAdmitted, runPlan_raise_nil _ ((rejectLines_seq s).trans hseq)]
  rfl

/-- INIT ends with DATA low: its last transaction's last nibble is 0. -/
theorem lastLevel_initTransactions {p : Params} (h : p.legal = true) (d : Level) :
    lastLevel d ((initTransactions p).flatMap Transaction.frameBits) = .low := by
  obtain ⟨hpos, -⟩ := (Params.legal_iff p).mp h
  obtain ⟨n, hn⟩ := Nat.exists_eq_add_of_le' hpos
  have hcommands : initTransactions p =
      [.cmd 0x01, .cmd 0x03, .cmd 0x18, .cmd 0x08, .cmd 0x90, .cmd 0xA0] ++ [bulkTransaction p 0x0] := rfl
  rw [hcommands, List.flatMap_append, List.flatMap_singleton, lastLevel_append, bulkTransaction, hn,
    List.replicate_succ', Transaction.frameBits, List.flatMap_append, List.flatMap_singleton, lastLevel_append, lastLevel_append,
    lastLevel_msbFirst _ _ (by decide)]
  rfl

/-- Settles O39: the course from the configured lines, whose idle levels and transactions the receiver follows. -/
theorem initCompletes : Obligations.InitCompletes := by
  unfold Obligations.InitCompletes
  intro s hseq hfirst hhandle hanswer hlegal hpins hrx
  have hruns : CourseRuns s.params .init := by
    obtain ⟨hpos, -⟩ := (Params.legal_iff s.params).mp hlegal
    exact Nat.one_le_iff_ne_zero.mp hpos
  have hstart : StartLines .init s.pins := hpins.elim (fun h => .inr ⟨rfl, h⟩) .inl
  have hplan : planInit s.params = .run (courseEvents s.params .init) :=
    Option.some.inj (busyPlan_of_courseRuns hruns)
  have hwire : wireRun (s.pins, s.rx) (courseEvents s.params .init) =
      (⟨.high, .high, .low⟩, (initTransactions s.params).foldl (fun r t => r.apply t) s.rx) := by
    rw [wireRun_courseEvents hruns hstart, if_pos rfl, courseTransactions, lastLevel_initTransactions hlegal,
      Receiver.withOpen_of_idle (Receiver.applyAll_idle _ hrx)]
  rw [exec_init_of_accepted hseq hfirst hhandle hanswer, hplan, runPlan,
    complete_of_idle (s := play _ (configureLines s)) .ok hseq, play, configureLines_pins, configureLines_rx, hwire, courseEvents_init, ← List.append_assoc]
  rfl

/-- After INIT's transactions the cells of the clear are 0 and the others as they were (R194). -/
theorem Receiver.read_applyAll_initTransactions {p : Params} (h : p.legal = true) (r : Receiver) (a : Nat) :
    ((initTransactions p).foldl (fun r t => r.apply t) r).ram.read a =
      if a < p.bulkNibbles then some 0x0 else r.ram.read a := by
  simp only [initTransactions, List.foldl_cons, List.foldl_nil, Receiver.read_apply_bulk h]
  rfl

/-- INIT with a legal bulk size faults nothing. -/
theorem Receiver.applyAll_initTransactions_fault {p : Params} (h : p.legal = true) (r : Receiver) :
    ((initTransactions p).foldl (fun r t => r.apply t) r).fault = r.fault := by
  simp only [initTransactions, List.foldl_cons, List.foldl_nil, Receiver.apply_bulk_fault h]
  rfl

/-- Settles O40: the reset state meets INIT's conditions, and its receiver knows nothing. -/
theorem initFromReset : Obligations.InitFromReset := by
  unfold Obligations.InitFromReset
  intro p h hlegal hdistinct
  have hrun := initCompletes { State.reset with params := p, handle := h, cfgOk := true } rfl (.inl rfl) hdistinct rfl
    hlegal (.inl rfl) ⟨rfl, rfl⟩
  have hread (a : Nat) := Receiver.read_applyAll_initTransactions hlegal Receiver.atReset a
  exact ⟨_, hrun, rfl, rfl, rfl, rfl, rfl, Receiver.applyAll_initTransactions_fault hlegal Receiver.atReset,
    Receiver.applyAll_log (initTransactions p) Receiver.atReset, fun a ha => (hread a).trans (if_pos ha),
    fun a ha => (hread a).trans (if_neg (Nat.not_lt.mpr ha))⟩

end Sys2Proof.Machine
end

section
/-! What the wire shows of the host operations (30_encoding.md section 6, 70_reset_and_hazards.md section 3): whole
transactions, their counts, and the timing that the waits give. -/

namespace Sys2Proof.Machine

/-! ### Whole transactions (20_memory.md R59) -/

/-- Settles O58: what an operation plays is its course. -/
theorem transactionsAreBracketed : Obligations.TransactionsAreBracketed := by
  unfold Obligations.TransactionsAreBracketed
  intro i s t hi h hok
  obtain ⟨-, hended⟩ := exec_ended hi h
  cases hended with
  | ok u runs starts =>
    refine ⟨courseTransactions s.params i, (courseTransactions_sendable runs).1, ?_, observedBits_transactions _⟩
    rw [complete_trace, play_trace, starts.trace, courseEvents, List.append_assoc]
  | outOfBounds | rejected => cases hok

/-! ### Counts (70_reset_and_hazards.md R255) -/

theorem lineEventCount_append (es fs : List TraceElem) :
    lineEventCount (es ++ fs) = lineEventCount es + lineEventCount fs := List.countP_append

theorem waitCount_append (es fs : List TraceElem) : waitCount (es ++ fs) = waitCount es + waitCount fs :=
  List.countP_append

/-- A bit is three line events and two waits (40_bit_transport.md R110). -/
theorem counts_bits (bits : List Bool) :
    lineEventCount (bits.flatMap bitEvents) = 3 * bits.length ∧
    waitCount (bits.flatMap bitEvents) = 2 * bits.length := by
  induction bits with
  | nil => exact ⟨rfl, rfl⟩
  | cons b bits ih =>
    have hline : lineEventCount (bitEvents b) = 3 := rfl
    have hwait : waitCount (bitEvents b) = 2 := rfl
    rw [List.flatMap_cons, lineEventCount_append, waitCount_append, hline, hwait, ih.1, ih.2, List.length_cons]
    omega

/-- The duration of a row follows from its waits. -/
theorem Occupies.of_counts (p : Params) {es : List TraceElem} {lines waits : Nat} (hlines : lineEventCount es = lines)
    (hwaits : waitCount es = waits) : Occupies p es lines waits :=
  ⟨hlines, hwaits, by rw [minimumDuration, hwaits]⟩

theorem Occupies.append {p : Params} {es fs : List TraceElem} {lines waits lines' waits' : Nat}
    (he : Occupies p es lines waits) (hf : Occupies p fs lines' waits') :
    Occupies p (es ++ fs) (lines + lines') (waits + waits') := by
  refine .of_counts p ?_ ?_
  · rw [lineEventCount_append, he.lineEvents, hf.lineEvents]
  · rw [waitCount_append, he.waitMarkers, hf.waitMarkers]

theorem Occupies.of_eq {p : Params} {es : List TraceElem} {lines waits lines' waits' : Nat}
    (h : Occupies p es lines waits) (hlines : lines = lines') (hwaits : waits = waits') : Occupies p es lines' waits' :=
  hlines ▸ hwaits ▸ h

theorem occupies_nil (p : Params) : Occupies p [] 0 0 := .of_counts p rfl rfl

/-- A transaction is its bits and the two chip-select events. -/
theorem occupies_wireEvents (p : Params) (t : Transaction) :
    Occupies p (wireEvents t) (3 * t.frameBits.length + 2) (2 * t.frameBits.length) := by
  obtain ⟨hlines, hwaits⟩ := counts_bits t.frameBits
  have hbits := Occupies.of_counts p hlines hwaits
  have hassert : Occupies p assertEvents 1 0 := .of_counts p rfl rfl
  have hrelease : Occupies p releaseEvents 1 0 := .of_counts p rfl rfl
  exact ((hassert.append hbits).append hrelease).of_eq (by omega) (by omega)

/-- The bits of some transactions. -/
def bitCount (ts : List Transaction) : Nat := (ts.map fun t => t.frameBits.length).sum

theorem bitCount_cons (t : Transaction) (ts : List Transaction) :
    bitCount (t :: ts) = t.frameBits.length + bitCount ts := by
  simp [bitCount]

theorem bitCount_append (ts us : List Transaction) : bitCount (ts ++ us) = bitCount ts + bitCount us := by
  simp [bitCount]

theorem occupies_transactions (p : Params) (ts : List Transaction) :
    Occupies p (ts.flatMap wireEvents) (3 * bitCount ts + 2 * ts.length) (2 * bitCount ts) := by
  induction ts with
  | nil => exact occupies_nil p
  | cons t ts ih =>
    refine ((occupies_wireEvents p t).append ih).of_eq ?_ ?_
    · rw [bitCount_cons, List.length_cons]; omega
    · rw [bitCount_cons]; omega

theorem occupies_courseEvents (p : Params) {i : Instr} (hne : i ≠ .init) {bits count : Nat}
    (hbits : bitCount (courseTransactions p i) = bits) (hcount : (courseTransactions p i).length = count) :
    Occupies p (courseEvents p i) (3 * bits + 2 * count) (2 * bits) := by
  rw [courseEvents_of_ne_init p hne, ← hbits, ← hcount]
  exact occupies_transactions p _

theorem occupies_courseEvents_init (p : Params) {bits count : Nat}
    (hbits : bitCount (courseTransactions p .init) = bits) (hcount : (courseTransactions p .init).length = count) :
    Occupies p (courseEvents p .init) (3 + (3 * bits + 2 * count)) (2 * bits) := by
  have hidle : Occupies p idleEvents 3 0 := .of_counts p rfl rfl
  rw [courseEvents_init, ← hbits, ← hcount]
  exact (hidle.append (occupies_transactions p _)).of_eq rfl (Nat.zero_add _)

theorem bitCount_charTransactions (p : Params) (d ch : Nat) : bitCount (charTransactions p d ch) = 52 := by
  simp [bitCount, charTransactions]

theorem bitCount_stringTransactions (p : Params) (text : List Nat) : bitCount (stringTransactions p text) = 520 := by
  have hdigits (n : Nat) :
      bitCount ((List.range n).flatMap fun k => charTransactions p k (stringChar text k)) = 52 * n := by
    induction n with
    | zero => rfl
    | succ n ih =>
      rw [List.range_succ, List.flatMap_append, List.flatMap_singleton, bitCount_append, ih, bitCount_charTransactions]
      omega
  exact hdigits 10

theorem length_stringTransactions (p : Params) (text : List Nat) : (stringTransactions p text).length = 40 := by
  simp [stringTransactions, charTransactions, List.length_flatMap, Config.numDigits]

theorem bitCount_bulk (p : Params) (v : Nibble) : bitCount [bulkTransaction p v] = 9 + 4 * p.bulkNibbles := by
  simp [bitCount, bulkTransaction]

theorem bitCount_initTransactions (p : Params) : bitCount (initTransactions p) = 66 + (9 + 4 * p.bulkNibbles) := by
  simp [bitCount, initTransactions, bulkTransaction]
  omega

/-- Settles O60: an operation that completes adds its course, and a failure nothing. -/
theorem eventAndWaitCounts : Obligations.EventAndWaitCounts := by
  unfold Obligations.EventAndWaitCounts
  refine ⟨occupies_wireEvents, fun i s t hi h => ?_⟩
  obtain ⟨-, hended⟩ := exec_ended hi h
  cases hended with
  | ok u runs starts =>
    refine ⟨courseEvents s.params i, ?_, fun hfail => absurd rfl hfail, fun _ =>
      ⟨?_, ?_, ?_, fun hforty => ?_, ?_, ?_, fun hforty => ?_⟩⟩
    · rw [complete_trace, play_trace, starts.trace]
    · rintro code rfl
      exact occupies_courseEvents (i := .sendCommand code) s.params (by simp) (bits := 11) rfl rfl
    · rintro d n v rfl
      exact occupies_courseEvents (i := .writeNibble d n v) s.params (by simp) (bits := 13) rfl rfl
    · rintro a ns rfl
      have hbits : bitCount (courseTransactions s.params (.writeBurst a ns)) = 9 + 4 * ns.length := by
        simp [bitCount, courseTransactions]
      exact (occupies_courseEvents (i := .writeBurst a ns) s.params (by simp) hbits rfl).of_eq rfl (by omega)
    · have hbulk (v : Nibble) : bitCount [bulkTransaction s.params v] = 169 := by rw [bitCount_bulk, hforty]
      rintro (rfl | ⟨on, rfl⟩)
      · exact occupies_courseEvents (i := .clear) s.params (by simp) (hbulk 0x0) rfl
      · exact occupies_courseEvents (i := .setAll on) s.params (by simp) (hbulk _) rfl
    · rintro d ch rfl
      exact occupies_courseEvents (i := .putChar d ch) s.params (by simp) (bitCount_charTransactions s.params d ch) rfl
    · rintro text rfl
      exact occupies_courseEvents (i := .putString text) s.params (by simp) (bitCount_stringTransactions s.params text)
        (length_stringTransactions s.params text)
    · rintro rfl
      have hbits : bitCount (initTransactions s.params) = 235 := by rw [bitCount_initTransactions, hforty]
      exact occupies_courseEvents_init s.params hbits rfl
  | outOfBounds | rejected => exact ⟨[], by simp, fun _ => occupies_nil _, nofun⟩

/-! ### Timing (70_reset_and_hazards.md R254) -/

/-- After every clock event comes a `Wait` (40_bit_transport.md R110, D5). -/
def ClockWaits : List TraceElem → Prop
  | [] => True
  | .line .wr _ :: es => es.head? = some .wait ∧ ClockWaits es
  | _ :: es => ClockWaits es

theorem ClockWaits.append {es fs : List TraceElem} (he : ClockWaits es) (hf : ClockWaits fs) :
    ClockWaits (es ++ fs) := by
  induction es with
  | nil => exact hf
  | cons e es ih =>
    cases e with
    | wait => exact ih he
    | line l v =>
      cases l with
      | cs | data => exact ih he
      | wr =>
        obtain ⟨hwait, he⟩ := he
        have hhead : (es ++ fs).head? = some .wait := by rw [List.head?_append, hwait, Option.some_or]
        exact ⟨hhead, ih he⟩

theorem ClockWaits.flatMap {α : Type} {xs : List α} {events : α → List TraceElem} (h : ∀ x, ClockWaits (events x)) :
    ClockWaits (xs.flatMap events) := by
  induction xs with
  | nil => trivial
  | cons x xs ih => exact (h x).append ih

theorem clockWaits_wireEvents (t : Transaction) : ClockWaits (wireEvents t) := by
  have hbit (b : Bool) : ClockWaits (bitEvents b) := ⟨rfl, rfl, trivial⟩
  have hassert : ClockWaits assertEvents := trivial
  have hrelease : ClockWaits releaseEvents := trivial
  exact (hassert.append (.flatMap hbit)).append hrelease

/-- One line event and the next: time does not go back, and passes `tMin` after a clock event. -/
def Paced (tMin : Nat) (a b : TimedEvent) : Prop := a.time ≤ b.time ∧ (a.line = .wr → a.time + tMin ≤ b.time)

theorem le_time_of_mem_schedule {now : Nat} {timed : List (TraceElem × Nat)} {e : TimedEvent}
    (h : e ∈ schedule now timed) : now ≤ e.time := by
  induction timed generalizing now with
  | nil => cases h
  | cons x timed ih =>
    obtain ⟨el, d⟩ := x
    cases el with
    | wait =>
      have := ih h
      omega
    | line l v =>
      rcases List.mem_cons.mp h with rfl | h
      · exact Nat.le_refl _
      · have := ih h
        omega

/-- Where every clock event is followed by a `Wait` of at least `tMin`, consecutive line events are paced. -/
theorem isChain_schedule {tMin : Nat} {timed : List (TraceElem × Nat)} (hclock : ClockWaits (timed.map Prod.fst))
    (hwaits : ∀ e ∈ timed, e.1 = .wait → tMin ≤ e.2) (now : Nat) : (schedule now timed).IsChain (Paced tMin) := by
  induction timed generalizing now with
  | nil => exact .nil
  | cons x timed ih =>
    obtain ⟨el, d⟩ := x
    obtain ⟨-, hrest⟩ := List.forall_mem_cons.mp hwaits
    cases el with
    | wait => exact ih hclock hrest _
    | line l v =>
      have hclock' : ClockWaits (timed.map Prod.fst) := by
        cases l with
        | cs | data => exact hclock
        | wr => exact hclock.2
      refine List.isChain_cons.mpr ⟨fun next hnext => ⟨?_, ?_⟩, ih hclock' hrest _⟩
      · have := le_time_of_mem_schedule (List.mem_of_mem_head? hnext)
        simp only
        omega
      · rintro rfl
        obtain ⟨hhead, -⟩ := hclock
        rcases timed with - | ⟨⟨el', d'⟩, timed⟩
        · cases hhead
        · cases hhead
          have hmin : tMin ≤ d' := hrest (.wait, d') (by simp) rfl
          have := le_time_of_mem_schedule (now := now + d + d') (List.mem_of_mem_head? hnext)
          simp only
          omega

/-- Settles O59: after each clock event the wait passes at least `T_MIN` before the next line event. -/
theorem waitsMeetTheTiming : Obligations.WaitsMeetTheTiming := by
  unfold Obligations.WaitsMeetTheTiming
  intro tMin start ts timed hevents hwaits
  have hclock : ClockWaits (timed.map Prod.fst) := hevents ▸ .flatMap clockWaits_wireEvents
  have hpaced {i : Nat} {a b : TimedEvent} (ha : (schedule start timed)[i]? = some a)
      (hb : (schedule start timed)[i + 1]? = some b) : Paced tMin a b := by
    obtain ⟨hi, rfl⟩ := List.getElem?_eq_some_iff.mp ha
    obtain ⟨hi', rfl⟩ := List.getElem?_eq_some_iff.mp hb
    exact List.isChain_iff_getElem.mp (isChain_schedule hclock hwaits start) i hi'
  exact {
    dataFirst := fun i d l hd hl _ _ _ => (hpaced hd hl).1
    clockLow := fun i l h hl hh hwr _ _ _ => (hpaced hl hh).2 hwr
    hold := fun i l h n _ hh hn _ _ hwr _ => (hpaced hh hn).2 hwr }

end Sys2Proof.Machine
end

section
/-! The memory frame of every instruction (20_memory.md R50, R66): which cells a transaction, a course and a primitive
can store to. -/

namespace Sys2Proof.Machine

/-! ### Transactions -/

theorem mem_cellsOf_write (addr : Address) (data : List Nibble) (a : Nat) :
    a ∈ cellsOf (.write addr data) ↔ addr.toNat ≤ a ∧ a < addr.toNat + data.length := by
  rw [cellsOf, List.mem_map]
  constructor
  · rintro ⟨i, hi, rfl⟩
    rw [List.mem_range] at hi
    omega
  · rintro ⟨hle, hlt⟩
    exact ⟨a - addr.toNat, List.mem_range.mpr (by omega), by omega⟩

/-- Where the receiver has not faulted, no transaction has passed address 63. -/
theorem not_passesTop_of_applyAll {ts : List Transaction} {r : Receiver}
    (hfault : (ts.foldl (fun r t => r.apply t) r).fault = false) {t : Transaction} (ht : t ∈ ts) : ¬ passesTop t :=
  fun htop =>
    absurd (hfault.symm.trans ((Receiver.applyAll_fault_iff ts r).mpr (.inr ⟨t, ht, htop⟩))) (by decide)

theorem not_passesTop_of_apply {t : Transaction} {r : Receiver} (hfault : (r.apply t).fault = false) : ¬ passesTop t :=
  not_passesTop_of_applyAll (ts := [t]) hfault (by simp)

/-- A transaction within the 64 cells stores to its own cells only. -/
theorem Receiver.read_apply_outside {t : Transaction} (htop : ¬ passesTop t) (r : Receiver) {a : Nat}
    (ha : a ∉ cellsOf t) : (r.apply t).ram.read a = r.ram.read a := by
  cases t with
  | cmd code => rfl
  | write addr data =>
    rw [mem_cellsOf_write] at ha
    exact Receiver.read_writeData_outside (Nat.not_lt.mp htop) (by omega)

theorem Receiver.read_applyAll_outside {ts : List Transaction} {r : Receiver}
    (hfault : (ts.foldl (fun r t => r.apply t) r).fault = false) {a : Nat} (ha : a ∉ ts.flatMap cellsOf) :
    (ts.foldl (fun r t => r.apply t) r).ram.read a = r.ram.read a := by
  induction ts generalizing r with
  | nil => rfl
  | cons t ts ih =>
    have htop : ¬ passesTop t := not_passesTop_of_applyAll hfault (by simp)
    rw [List.flatMap_cons, List.mem_append, not_or] at ha
    exact (ih hfault ha.2).trans (Receiver.read_apply_outside htop r ha.1)

/-! ### Host operations -/

theorem cellsOf_bulk (p : Params) (v : Nibble) : cellsOf (bulkTransaction p v) = List.range p.bulkNibbles := by
  simp [bulkTransaction, cellsOf]

theorem flatMap_cellsOf_initTransactions (p : Params) :
    (initTransactions p).flatMap cellsOf = List.range p.bulkNibbles :=
  (List.append_nil _).trans (cellsOf_bulk p 0x0)

theorem flatMap_cellsOf_charTransactions (p : Params) (d ch : Nat) :
    (charTransactions p d ch).flatMap cellsOf =
      [0, 1, 2, 3].map fun i => (addressField (digitAddress d i)).toNat := rfl

/-- The cells a digit's WRITEs store to are among the forty. -/
theorem lt_digitCells_of_charTransactions {p : Params} {d ch a : Nat} (hd : d < 10)
    (h : a ∈ (charTransactions p d ch).flatMap cellsOf) : a < Config.digitCells := by
  rw [flatMap_cellsOf_charTransactions, List.mem_map] at h
  obtain ⟨i, hi, rfl⟩ := h
  have hi : i < 4 := List.mem_range.mp (show i ∈ List.range 4 from hi)
  rw [addressField_digitAddress_toNat hd hi, Config.digitCells]
  omega

/-- The cells that a course's transactions store to are the operation's stored addresses. -/
theorem mem_cellsStored_of_course {s : State} {i : Instr} (runs : CourseRuns s.params i) {a : Nat}
    (h : a ∈ (courseTransactions s.params i).flatMap cellsOf) : a ∈ cellsStored s i := by
  cases i with
  | init =>
    rw [courseTransactions, flatMap_cellsOf_initTransactions] at h
    exact h
  | sendCommand code => simp [courseTransactions, cellsOf] at h
  | writeNibble d n v =>
    rw [cellsStored, if_pos ((digitInBounds_iff d n).mpr runs)]
    exact h
  | writeBurst start ns => simpa [courseTransactions, cellsOf, cellsStored] using h
  | setAll on => simpa [courseTransactions, cellsOf_bulk, cellsStored] using h
  | clear => simpa [courseTransactions, cellsOf_bulk, cellsStored] using h
  | putChar d ch =>
    rw [cellsStored, if_pos (show d < Config.numDigits from runs.2)]
    exact h
  | putString text =>
    rw [courseTransactions, stringTransactions, List.flatMap_assoc, List.mem_flatMap] at h
    obtain ⟨k, hk, h⟩ := h
    exact List.mem_range.mpr (lt_digitCells_of_charTransactions (List.mem_range.mp hk) h)
  | _ => exact runs.elim

theorem read_of_hostOperation {i : Instr} {s t : State} (hi : isHostOperation i = true) (hpins : StartLines i s.pins)
    (h : exec i s = .next t) (hfault : t.rx.fault = false) {a : Nat} (ha : a ∉ cellsStored s i) :
    t.rx.ram.read a = s.rx.ram.read a := by
  obtain ⟨-, hended⟩ := exec_ended hi h
  cases hended with
  | ok u runs starts =>
    rw [complete_rx, play_rx, starts.pins, starts.rx, wireRun_courseEvents runs hpins] at hfault ⊢
    exact Receiver.read_applyAll_outside hfault fun hmem => ha (mem_cellsStored_of_course runs hmem)
  | outOfBounds | rejected => rfl

/-! ### Primitives and frames -/

/-- EMIT_BIT, EMIT_WORD and CS_ASSERT leave the RAM in every state (20_memory.md R63, R64). -/
theorem ram_of_emit {i : Instr} {s t : State}
    (hi : (∃ level, i = .emitBit level) ∨ (∃ value bitCount, i = .emitWord value bitCount) ∨ i = .csAssert)
    (h : exec i s = .next t) : t.rx.ram = s.rx.ram := by
  rcases hi with ⟨level, rfl⟩ | ⟨value, bitCount, rfl⟩ | rfl
  · obtain ⟨-, rfl⟩ := primitive_next rfl h
    rw [primitiveEvents, play_bitEvents]
  · obtain ⟨-, rfl⟩ := primitive_next rfl h
    rw [primitiveEvents, play_wordEvents]
  · obtain ⟨hcfg, -⟩ := primitive_next rfl h
    rw [exec_csAssert_of_cfg hcfg, Receiver.react_csFalls] at h
    cases h
    simp only
    split
    · exact Receiver.bracketEdge_ram _ _
    · exact Receiver.bracketEdge_ram _ _

/-- Where the receiver does not fault, a closed bit list stores to the cells of the transaction it carries. -/
theorem Receiver.read_receive_outside {bits : List Bool} {r : Receiver} (hfault : (r.receive bits).fault = false)
    {a : Nat} (ha : a ∉ (parseFrame bits).elim [] cellsOf) : (r.receive bits).ram.read a = r.ram.read a := by
  rw [Receiver.receive] at hfault ⊢
  cases hparse : parseFrame bits with
  | none =>
    rw [hparse] at hfault
    cases hfault
  | some t =>
    rw [hparse] at hfault ha
    exact Receiver.read_apply_outside (not_passesTop_of_apply hfault) r ha

theorem cellsReleased_of_open {s : State} (hcs : s.pins.cs = .low) (hopen : s.rx.isOpen = true) :
    cellsReleased s = (parseFrame s.rx.bits).elim [] cellsOf := by
  rw [cellsReleased, if_pos ⟨hcs, hopen⟩]
  cases parseFrame s.rx.bits <;> rfl

/-- CS_RELEASE stores what the open transaction that it closes carries (20_memory.md R64, R65). -/
theorem read_of_csRelease {s t : State} (h : exec .csRelease s = .next t) (hfault : t.rx.fault = false) {a : Nat}
    (ha : a ∉ cellsReleased s) : t.rx.ram.read a = s.rx.ram.read a := by
  obtain ⟨hcfg, -⟩ := primitive_next rfl h
  rw [exec_csRelease_of_cfg hcfg, Receiver.react_csRises] at h
  have hedge := Receiver.bracketEdge_ram s.pins.wr s.rx
  split at h
  · rename_i hcs
    split at h
    · rename_i hopen
      rw [cellsReleased_of_open hcs hopen, ← (s.rx.bracketEdge_open s.pins.wr).2] at ha
      cases h
      rw [← hedge]
      exact Receiver.read_receive_outside hfault ha
    · cases h
      exact congrArg (Memory.read · a) hedge
  · cases h
    rfl

theorem cellsOf_of_frameTransaction {i : Instr} {t : Transaction} (s : State) (h : frameTransaction? i = some t) :
    cellsOf t = cellsStored s i := by
  cases i <;> cases h <;> rfl

/-- A wire frame stores to the cells of its transaction. -/
theorem read_of_frame {i : Instr} {s : State} (hfault : (frameEffect i s.rx).fault = false) {a : Nat}
    (ha : a ∉ cellsStored s i) : (frameEffect i s.rx).ram.read a = s.rx.ram.read a := by
  rcases frameEffect_cases i s.rx with ⟨t, ht, heffect⟩ | heffect
  · rw [heffect] at hfault ⊢
    exact Receiver.read_apply_outside (not_passesTop_of_apply hfault) s.rx (cellsOf_of_frameTransaction s ht ▸ ha)
  · rw [heffect] at hfault
    cases hfault

/-- Settles O56: a course, a released transaction and a frame store to the cells of their transactions. -/
theorem otherCellsAreUnchanged : Obligations.OtherCellsAreUnchanged := by
  unfold Obligations.OtherCellsAreUnchanged
  refine ⟨fun i s t hhost haddr h hfault a ha => ?_, fun i s t hi h => ram_of_emit hi h⟩
  rcases exec_next_cases h with hi | ⟨hprim, hcfg, -⟩ | ⟨hframe, rfl⟩
  · exact read_of_hostOperation hi (hhost hi) h hfault ha
  · cases i with
    | emitBit level => rw [ram_of_emit (.inl ⟨level, rfl⟩) h]
    | emitWord value bitCount => rw [ram_of_emit (.inr (.inl ⟨value, bitCount, rfl⟩)) h]
    | csAssert => rw [ram_of_emit (.inr (.inr rfl)) h]
    | csRelease => exact read_of_csRelease h hfault ha
    | writeAddr addr value =>
      rw [exec_writeAddr_of_idle addr value hcfg (haddr ⟨addr, value, rfl⟩)] at h
      cases h
      exact Receiver.read_apply_outside (passesTop_single _ _) s.rx ha
    | _ => cases hprim
  · exact read_of_frame hfault ha

end Sys2Proof.Machine
end
